-- ==== Sys2Proof/Word.lean ====
section
/-! DEFINITION. The plainest types: bytes, instruction words and register numbers. -/

namespace Sys2Proof

/-- One byte of the address space (R40). -/
abbrev Byte := BitVec 8

/-- One 32-bit instruction word (R50); bit 0 is the least-significant bit (R8). -/
abbrev Word := BitVec 32

/-- The number of a scalar or vector register, a 5-bit unsigned field (R53): `x0` to `x31`, `v0` to `v31`
(R20, R22). -/
abbrev RegNum := Fin 32

end Sys2Proof
end

