-- ==== Sys2Proof/Config.lean ====
section
/-! DEFINITION. The implementation parameters of R5, and the two open choices TrapModel (R133) and
VL0_WRITES_TAIL (D32). A configuration is plain data carried by every state and written by no step, so a
statement about every state is a statement about every configuration (notes/assumptions/2.md). The rules leave
no value free, so the file declares no opaque constant. -/

namespace Sys2Proof

/-- The base ISA, which fixes XLEN (R1, R5, D2). -/
inductive BaseIsa
  | rv32
  | rv64
deriving DecidableEq, Repr

/-- What a raised exception does (R133, D22). -/
inductive TrapModel
  /-- The exception ends the run with a fault; no state changes (D22). -/
  | terminalFault
  /-- PRESUMED (R132, R133 give it from general knowledge; notes/assumptions/19.md): the hart enters an M-mode
  trap. The tval register receives the instruction bits if `tvalHoldsBits`, else zero. -/
  | machineTrap (tvalHoldsBits : Bool)
deriving DecidableEq, Repr

/-- The parameters of one hart (R5). Powers of two are held as exponents. -/
structure Config where
  /-- Selects XLEN. -/
  base : BaseIsa
  /-- log2 of VLEN. -/
  vlenLog : Nat
  /-- log2 of ELEN. -/
  elenLog : Nat
  /-- RESET_PC (R33). -/
  resetPc : Nat
  /-- TrapModel (R133). -/
  trapModel : TrapModel
  /-- VL0_WRITES_TAIL (D32). -/
  vl0WritesTail : Bool
deriving DecidableEq, Repr

/-- XLEN: the width of an `x` register and of the pc (R5). -/
def Config.xlen (c : Config) : Nat :=
  match c.base with
  | .rv32 => 32
  | .rv64 => 64

/-- VLEN: the width of one vector register (R5). -/
def Config.vlen (c : Config) : Nat := 2 ^ c.vlenLog

/-- ELEN: the largest element width (R5). -/
def Config.elen (c : Config) : Nat := 2 ^ c.elenLog

/-- DESIGN CHOICE (notes/assumptions/2.md, 23.md): the configuration of `State.reset`, that of most of the spec's
worked vectors (95_test_vectors.md): RV32, VLEN = 128, ELEN = 32, RESET_PC = 0x1000. The decisions D22 and D32
fix the other two. -/
def Config.standard : Config where
  base := .rv32
  vlenLog := 7
  elenLog := 5
  resetPc := 0x1000
  trapModel := .terminalFault
  vl0WritesTail := true

end Sys2Proof
end

