-- ==== Sys2Proof/Syntax.lean ====
section
/-! DEFINITION. The instructions, one constructor per row of spec/opcode_table.json and in its order, the four
pseudo-instructions (R62) and the assembler's view of a line (R61). -/

namespace Sys2Proof

/-- The fifteen instructions of the chapter (R3). Operands are in assembler order (R61): destination, `vs2`, `vs1`.
`vm = true` is unmasked, `vm = false` masked by `v0` (R52; PRESUMED polarity, notes/assumptions/26.md). -/
inductive Instr
  | vmandnotMm (vd vs2 vs1 : RegNum)
  | vmandMm (vd vs2 vs1 : RegNum)
  | vmorMm (vd vs2 vs1 : RegNum)
  | vmxorMm (vd vs2 vs1 : RegNum)
  | vmornotMm (vd vs2 vs1 : RegNum)
  | vmnandMm (vd vs2 vs1 : RegNum)
  | vmnorMm (vd vs2 vs1 : RegNum)
  | vmxnorMm (vd vs2 vs1 : RegNum)
  | vpopcM (rd vs2 : RegNum) (vm : Bool)
  | vfirstM (rd vs2 : RegNum) (vm : Bool)
  | vmsbfM (vd vs2 : RegNum) (vm : Bool)
  | vmsofM (vd vs2 : RegNum) (vm : Bool)
  | vmsifM (vd vs2 : RegNum) (vm : Bool)
  | viotaM (vd vs2 : RegNum) (vm : Bool)
  | vidV (vd : RegNum) (vm : Bool)
deriving DecidableEq, Repr

/-- The assembler shorthands (R62, R79 to R82). They have no encoding of their own. -/
inductive Pseudo
  | vmcpyM (vd vs : RegNum)
  | vmclrM (vd : RegNum)
  | vmsetM (vd : RegNum)
  | vmnotM (vd vs : RegNum)
deriving DecidableEq, Repr

/-- One assembler operand (R61): a vector register, a scalar register, or the mask `v0.t`. -/
inductive AsmOperand
  | v (n : RegNum)
  | x (n : RegNum)
  | v0t
deriving DecidableEq, Repr

/-- One assembler line: the mnemonic as the source's syntax line spells it (R61) and its operands in order. -/
structure AsmLine where
  mnemonic : String
  operands : List AsmOperand
deriving DecidableEq, Repr

end Sys2Proof
end

