-- ==== Sys2Proof/WellFormed.lean ====
section
/-! DEFINITION. What makes a configuration legal (R5, R33), and the static operand restrictions on instructions.

Register numbers are `Fin 32`, so every operand of an `Instr` fits its field by its type and every `Instr` has a
word. What remains to check about an instruction alone are R111's restrictions that fail in every state. A word that
breaks one of them still decodes (R60) and raises illegal instruction when it executes, so decoding, encoding and the
step are stated for every instruction, well-formed or not. -/

namespace Sys2Proof

/-- The legal values of R5 and R33: VLEN >= 32, VLEN <= 2^31 (R7), 8 <= ELEN <= VLEN, and RESET_PC a multiple of 4
inside the address space. -/
def Config.legal (c : Config) : Bool :=
  decide (5 ≤ c.vlenLog) && decide (c.vlenLog ≤ 31) && decide (3 ≤ c.elenLog)
    && decide (c.elenLog ≤ c.vlenLog) && decide (c.resetPc % 4 = 0) && decide (c.resetPc < 2 ^ c.xlen)

/-- The operands are not illegal in every state: a `viota.m` destination is not its source, and a masked `viota.m`
does not write `v0` (R111). -/
def Instr.wellFormed : Instr → Bool
  | .vmandnotMm _ _ _ => true
  | .vmandMm _ _ _ => true
  | .vmorMm _ _ _ => true
  | .vmxorMm _ _ _ => true
  | .vmornotMm _ _ _ => true
  | .vmnandMm _ _ _ => true
  | .vmnorMm _ _ _ => true
  | .vmxnorMm _ _ _ => true
  | .vpopcM _ _ _ => true
  | .vfirstM _ _ _ => true
  | .vmsbfM _ _ _ => true
  | .vmsofM _ _ _ => true
  | .vmsifM _ _ _ => true
  | .viotaM vd vs2 vm => vd != vs2 && (vm || vd != 0)
  | .vidV _ _ => true

end Sys2Proof
end

