-- ==== Sys2Proof/Decode.lean ====
section
/-! DEFINITION. Bytes and words, the opcode table, the decoder of R60, the encoder of R54 to R56, and the assembler's
spelling (R61, R62). Every bit pattern is PRESUMED: the spec takes it from general knowledge (D1;
notes/assumptions/1.md). -/

namespace Sys2Proof

/-! ## Byte order (R42) -/

/-- The word whose bytes, from the lowest address up, are given: the first is bits 7:0 (R42). -/
def wordOfBytes (b0 b1 b2 b3 : Byte) : Word :=
  b0.setWidth 32 ||| b1.setWidth 32 <<< 8 ||| b2.setWidth 32 <<< 16 ||| b3.setWidth 32 <<< 24

/-- Byte `i` of a number, counted from the least-significant end (R42). -/
def byteOf (n i : Nat) : Byte := BitVec.ofNat 8 (n / 256 ^ i)

/-! ## Fields (R51) -/

/-- `opcode = inst[6:0]`. -/
def Word.opcode (w : Word) : BitVec 7 := w.extractLsb' 0 7
/-- `vd = rd = inst[11:7]`. -/
def Word.rd (w : Word) : RegNum := (w.extractLsb' 7 5).toFin
/-- `funct3 = inst[14:12]`. -/
def Word.funct3 (w : Word) : BitVec 3 := w.extractLsb' 12 3
/-- `vs1 = inst[19:15]`, a register number or a sub-operation code (R53). -/
def Word.vs1 (w : Word) : BitVec 5 := w.extractLsb' 15 5
/-- `vs2 = inst[24:20]`. -/
def Word.vs2 (w : Word) : RegNum := (w.extractLsb' 20 5).toFin
/-- `vm = inst[25]`: 1 unmasked, 0 masked (R52). -/
def Word.vm (w : Word) : Bool := w.getLsbD 25
/-- `funct6 = inst[31:26]`. -/
def Word.funct6 (w : Word) : BitVec 6 := w.extractLsb' 26 6

/-- The major opcode OP-V (R51). -/
def opV : BitVec 7 := 0b1010111#7
/-- `funct3` of the OPMVV function group (R51). -/
def opMvv : BitVec 3 := 0b010#3

/-- A word of the OPMVV format from its fields (R51). -/
def opMvvWord (funct6 : BitVec 6) (vm : Bool) (vs2 : RegNum) (vs1 : BitVec 5) (rd : RegNum) : Word :=
  funct6.setWidth 32 <<< 26 ||| (BitVec.ofBool vm).setWidth 32 <<< 25 ||| (BitVec.ofFin (w := 5) vs2).setWidth 32 <<< 20
    ||| vs1.setWidth 32 <<< 15 ||| opMvv.setWidth 32 <<< 12 ||| (BitVec.ofFin (w := 5) rd).setWidth 32 <<< 7
    ||| opV.setWidth 32

/-! ## The encoder (R54 to R56) -/

/-- The word of an instruction. -/
def encode : Instr → Word
  | .vmandnotMm vd vs2 vs1 => opMvvWord 0b011000#6 true vs2 (BitVec.ofFin vs1) vd
  | .vmandMm vd vs2 vs1 => opMvvWord 0b011001#6 true vs2 (BitVec.ofFin vs1) vd
  | .vmorMm vd vs2 vs1 => opMvvWord 0b011010#6 true vs2 (BitVec.ofFin vs1) vd
  | .vmxorMm vd vs2 vs1 => opMvvWord 0b011011#6 true vs2 (BitVec.ofFin vs1) vd
  | .vmornotMm vd vs2 vs1 => opMvvWord 0b011100#6 true vs2 (BitVec.ofFin vs1) vd
  | .vmnandMm vd vs2 vs1 => opMvvWord 0b011101#6 true vs2 (BitVec.ofFin vs1) vd
  | .vmnorMm vd vs2 vs1 => opMvvWord 0b011110#6 true vs2 (BitVec.ofFin vs1) vd
  | .vmxnorMm vd vs2 vs1 => opMvvWord 0b011111#6 true vs2 (BitVec.ofFin vs1) vd
  | .vpopcM rd vs2 vm => opMvvWord 0b010000#6 vm vs2 0b10000#5 rd
  | .vfirstM rd vs2 vm => opMvvWord 0b010000#6 vm vs2 0b10001#5 rd
  | .vmsbfM vd vs2 vm => opMvvWord 0b010100#6 vm vs2 0b00001#5 vd
  | .vmsofM vd vs2 vm => opMvvWord 0b010100#6 vm vs2 0b00010#5 vd
  | .vmsifM vd vs2 vm => opMvvWord 0b010100#6 vm vs2 0b00011#5 vd
  | .viotaM vd vs2 vm => opMvvWord 0b010100#6 vm vs2 0b10000#5 vd
  | .vidV vd vm => opMvvWord 0b010100#6 vm 0 0b10001#5 vd

/-! ## The decoder (R60) -/

/-- The two reserved sets of words. -/
inductive ReservedKind
  /-- The `vid.v` pattern with a `vs2` field that is not 0 (R57). -/
  | vidVs2NotZero
  /-- A mask-logical pattern with `vm = 0` (R58). -/
  | maskLogicalMasked
deriving DecidableEq, Repr

/-- What a word decodes to (R60). -/
inductive Decoded
  /-- One of the fifteen instructions. -/
  | instr (i : Instr)
  /-- A reserved word; executing it raises illegal instruction (R57, R58). -/
  | reserved (kind : ReservedKind)
  /-- A word the spec has no rule for; the machine refuses it (R59). -/
  | notInSpec
deriving DecidableEq, Repr

/-- The mask-logical instruction of a `funct6` value from 011000 to 011111 (R54). -/
def maskLogicalInstr (funct6 : BitVec 6) (vd vs2 vs1 : RegNum) : Instr :=
  if funct6 = 0b011000#6 then .vmandnotMm vd vs2 vs1
  else if funct6 = 0b011001#6 then .vmandMm vd vs2 vs1
  else if funct6 = 0b011010#6 then .vmorMm vd vs2 vs1
  else if funct6 = 0b011011#6 then .vmxorMm vd vs2 vs1
  else if funct6 = 0b011100#6 then .vmornotMm vd vs2 vs1
  else if funct6 = 0b011101#6 then .vmnandMm vd vs2 vs1
  else if funct6 = 0b011110#6 then .vmnorMm vd vs2 vs1
  else .vmxnorMm vd vs2 vs1

/-- The decode procedure of R60, total on 32-bit words. -/
def decode (w : Word) : Decoded :=
  if w.opcode ≠ opV ∨ w.funct3 ≠ opMvv then .notInSpec
  else if w.funct6.extractLsb' 3 3 = 0b011#3 then
    if w.vm then .instr (maskLogicalInstr w.funct6 w.rd w.vs2 w.vs1.toFin)
    else .reserved .maskLogicalMasked
  else if w.funct6 = 0b010000#6 then
    if w.vs1 = 0b10000#5 then .instr (.vpopcM w.rd w.vs2 w.vm)
    else if w.vs1 = 0b10001#5 then .instr (.vfirstM w.rd w.vs2 w.vm)
    else .notInSpec
  else if w.funct6 = 0b010100#6 then
    if w.vs1 = 0b00001#5 then .instr (.vmsbfM w.rd w.vs2 w.vm)
    else if w.vs1 = 0b00010#5 then .instr (.vmsofM w.rd w.vs2 w.vm)
    else if w.vs1 = 0b00011#5 then .instr (.vmsifM w.rd w.vs2 w.vm)
    else if w.vs1 = 0b10000#5 then .instr (.viotaM w.rd w.vs2 w.vm)
    else if w.vs1 = 0b10001#5 then
      if w.vs2 ≠ 0 then .reserved .vidVs2NotZero
      else .instr (.vidV w.rd w.vm)
    else .notInSpec
  else .notInSpec

/-- Why a list of bytes gives no instruction. -/
inductive DecodeError
  /-- Fewer than the four bytes of R50. -/
  | truncated
  /-- A reserved word (R57, R58). -/
  | reserved (kind : ReservedKind)
  /-- A word of no rule (R59). -/
  | notInSpec
deriving DecidableEq, Repr

/-- The decoder on bytes in memory order (R42, R50): the instruction and the bytes after it. -/
def decodeBytes : List Byte → Except DecodeError (Instr × List Byte)
  | b0 :: b1 :: b2 :: b3 :: rest =>
    match decode (wordOfBytes b0 b1 b2 b3) with
    | .instr i => .ok (i, rest)
    | .reserved k => .error (.reserved k)
    | .notInSpec => .error .notInSpec
  | _ => .error .truncated

/-- The four bytes, in memory order, of an instruction whose bits below `nbits` are `w` and whose other bits are 0. -/
def tableBytes (nbits w : Nat) : List Byte :=
  let n := w % 2 ^ nbits
  [byteOf n 0, byteOf n 1, byteOf n 2, byteOf n 3]

/-- The instruction the decoder reads from the bits of an opcode-table row laid out in memory. -/
def decodeTableWord (nbits w : Nat) : Option Instr :=
  match decodeBytes (tableBytes nbits w) with
  | .ok (i, _) => some i
  | .error _ => none

/-! ## The opcode table (R54 to R56, opcode_table.json) -/

/-- One row: a word `w` is the instruction when `w AND mask = match` (section 2 of 30_encoding.md). -/
structure OpcodeRow where
  mnemonic : String
  mask : Word
  fixed : Word
deriving DecidableEq, Repr

/-- The row of an instruction. -/
def Instr.row : Instr → OpcodeRow
  | .vmandnotMm _ _ _ => ⟨"vmandnot.mm", 0xFE00707F#32, 0x62002057#32⟩
  | .vmandMm _ _ _ => ⟨"vmand.mm", 0xFE00707F#32, 0x66002057#32⟩
  | .vmorMm _ _ _ => ⟨"vmor.mm", 0xFE00707F#32, 0x6A002057#32⟩
  | .vmxorMm _ _ _ => ⟨"vmxor.mm", 0xFE00707F#32, 0x6E002057#32⟩
  | .vmornotMm _ _ _ => ⟨"vmornot.mm", 0xFE00707F#32, 0x72002057#32⟩
  | .vmnandMm _ _ _ => ⟨"vmnand.mm", 0xFE00707F#32, 0x76002057#32⟩
  | .vmnorMm _ _ _ => ⟨"vmnor.mm", 0xFE00707F#32, 0x7A002057#32⟩
  | .vmxnorMm _ _ _ => ⟨"vmxnor.mm", 0xFE00707F#32, 0x7E002057#32⟩
  | .vpopcM _ _ _ => ⟨"vpopc.m", 0xFC0FF07F#32, 0x40082057#32⟩
  | .vfirstM _ _ _ => ⟨"vfirst.m", 0xFC0FF07F#32, 0x4008A057#32⟩
  | .vmsbfM _ _ _ => ⟨"vmsbf.m", 0xFC0FF07F#32, 0x5000A057#32⟩
  | .vmsofM _ _ _ => ⟨"vmsof.m", 0xFC0FF07F#32, 0x50012057#32⟩
  | .vmsifM _ _ _ => ⟨"vmsif.m", 0xFC0FF07F#32, 0x5001A057#32⟩
  | .viotaM _ _ _ => ⟨"viota.m", 0xFC0FF07F#32, 0x50082057#32⟩
  | .vidV _ _ => ⟨"vid.v", 0xFDFFF07F#32, 0x5008A057#32⟩

/-- The word matches the row. -/
def OpcodeRow.covers (r : OpcodeRow) (w : Word) : Bool := w &&& r.mask == r.fixed

/-! ## Assembler spelling (R61, R62) -/

/-- The instruction a shorthand assembles to (R79 to R82). -/
def Pseudo.expand : Pseudo → Instr
  | .vmcpyM vd vs => .vmandMm vd vs vs
  | .vmclrM vd => .vmxorMm vd vd vd
  | .vmsetM vd => .vmxnorMm vd vd vd
  | .vmnotM vd vs => .vmnandMm vd vs vs

/-- The `vm` operand: absent when unmasked, `v0.t` when masked (R52). -/
def asmVm (vm : Bool) : List AsmOperand := if vm then [] else [.v0t]

/-- The operands of an instruction in assembler order: destination, `vs2`, `vs1`, mask (R61). -/
def Instr.asmOperands : Instr → List AsmOperand
  | .vmandnotMm vd vs2 vs1 => [.v vd, .v vs2, .v vs1]
  | .vmandMm vd vs2 vs1 => [.v vd, .v vs2, .v vs1]
  | .vmorMm vd vs2 vs1 => [.v vd, .v vs2, .v vs1]
  | .vmxorMm vd vs2 vs1 => [.v vd, .v vs2, .v vs1]
  | .vmornotMm vd vs2 vs1 => [.v vd, .v vs2, .v vs1]
  | .vmnandMm vd vs2 vs1 => [.v vd, .v vs2, .v vs1]
  | .vmnorMm vd vs2 vs1 => [.v vd, .v vs2, .v vs1]
  | .vmxnorMm vd vs2 vs1 => [.v vd, .v vs2, .v vs1]
  | .vpopcM rd vs2 vm => [.x rd, .v vs2] ++ asmVm vm
  | .vfirstM rd vs2 vm => [.x rd, .v vs2] ++ asmVm vm
  | .vmsbfM vd vs2 vm => [.v vd, .v vs2] ++ asmVm vm
  | .vmsofM vd vs2 vm => [.v vd, .v vs2] ++ asmVm vm
  | .vmsifM vd vs2 vm => [.v vd, .v vs2] ++ asmVm vm
  | .viotaM vd vs2 vm => [.v vd, .v vs2] ++ asmVm vm
  | .vidV vd vm => [.v vd] ++ asmVm vm

/-- The assembler line of an instruction (R61). -/
def Instr.asm (i : Instr) : AsmLine := ⟨i.row.mnemonic, i.asmOperands⟩

/-- The assembler line of a shorthand (R62). -/
def Pseudo.asm : Pseudo → AsmLine
  | .vmcpyM vd vs => ⟨"vmcpy.m", [.v vd, .v vs]⟩
  | .vmclrM vd => ⟨"vmclr.m", [.v vd]⟩
  | .vmsetM vd => ⟨"vmset.m", [.v vd]⟩
  | .vmnotM vd vs => ⟨"vmnot.m", [.v vd, .v vs]⟩

end Sys2Proof
end

