-- ==== Sys2Proof/Machine/State.lean ====
section
/-! DEFINITION. The state of the hart, as plain data: everything 10_state.md names (R20 to R28), the program text
(R40, R46) and the registers a trap uses (R132, R133); the reasons a step can stop; the state after reset (R33). -/

namespace Sys2Proof.Machine

/-- `vtype` as the three abstract fields of R26. SEW and LMUL are held as exponents, so that each is a power of two
by construction (notes/assumptions/3.md); SEW <= ELEN is part of the invariant `State.Inv` (R30). -/
structure VType where
  /-- The last `vtype` write asked for an unsupported setting; SEW and LMUL then carry no meaning (R26). -/
  vill : Bool
  /-- SEW = 8 * 2^vsew (R26). -/
  vsew : Nat
  /-- LMUL = 2^vlmul, so 1, 2, 4 or 8 (R5, R26). -/
  vlmul : Fin 4
deriving DecidableEq, Repr

/-- The mode of the hart, as far as the spec names one: M-mode, which a trap switches to (R133), or any other. The
fifteen instructions behave alike in both (R138). -/
inductive Priv
  | lower
  | machine
deriving DecidableEq, Repr

/-- The bytes placed in the address space (R40), addresses strictly rising. A byte that is not listed cannot be read
(notes/assumptions/18.md). -/
abbrev Memory := List Host.Cell

/-- The canonical form of a memory: addresses strictly rising. An unlisted address reads as no value at all, so no
entry can equal what an unlisted address reads as. -/
abbrev Memory.wf (m : Memory) : Prop := m.Pairwise fun p q => p.1 < q.1

/-- The state of one hart. -/
structure State where
  /-- The parameters of the hart (R5); no step writes them. -/
  cfg : Config
  /-- `x0` to `x31` (R20). Slot 0 is never written and holds 0; all access goes through `readX` and `writeX`. -/
  x : Vector (BitVec cfg.xlen) 32
  /-- The address of the current instruction (R21). -/
  pc : BitVec cfg.xlen
  /-- `v0` to `v31` (R22). -/
  v : Vector (BitVec cfg.vlen) 32
  /-- The vector type register (R26). -/
  vtype : VType
  /-- The vector length (R27). -/
  vl : BitVec cfg.xlen
  /-- The index of the first element to process (R28). -/
  vstart : BitVec cfg.xlen
  /-- The program text (R40, R46). -/
  mem : Memory
  /-- Whether the hart is in M-mode (R133). -/
  priv : Priv
  /-- The trap handler's address (R133). -/
  mtvec : BitVec cfg.xlen
  /-- The pc a trap saves (R132, R133). -/
  mepc : BitVec cfg.xlen
  /-- The cause code a trap records (R132, R133). -/
  mcause : BitVec cfg.xlen
  /-- The tval register: the instruction bits, or zero (R132). -/
  mtval : BitVec cfg.xlen
deriving DecidableEq, Repr

/-- Why the machine stops with a fault. -/
inductive Fault
  /-- The illegal-instruction exception under the terminal TrapModel, with the address of the instruction and its 32
  bits (R132, R133). Raised by every instruction on the causes of R131 and by the step on a reserved word. Safe: a
  faulted run proves nothing about what a handler would do (D22). -/
  | illegalInstruction (pc : Nat) (inst : Word)
  /-- Raised by the fetch when the pc is not a multiple of 4, a state R43 does not admit. Safe: the machine stops
  where the spec admits no run. -/
  | fetchMisaligned (pc : Nat)
  /-- Raised by the fetch when one of the four bytes at the pc holds no program text. Safe: the machine stops where a
  real hart would read some byte (notes/assumptions/18.md). -/
  | fetchNoText (pc : Nat)
deriving DecidableEq, Repr

/-- Why the machine gives an instruction no meaning. -/
inductive Refusal
  /-- Raised by an arm of `exec` whose instruction has no meaning yet; no arm does. Safe. -/
  | notModelled (mnemonic : String)
  /-- Raised by the step on a word the spec has no rule for (R59). Safe: nothing is claimed about the word. -/
  | notInSpec (inst : Word)
  /-- Raised by `vid.v` when it is masked, its group starts at `v0` and LMUL > 1 (R112, D16 (c), U6). Safe: nothing
  is claimed about the form. -/
  | vidMaskedGroupHoldsV0
deriving DecidableEq, Repr

/-- A state right after reset of a hart with the given parameters: `pc` at RESET_PC and `x0` = 0 (R33). DESIGN CHOICE
(notes/assumptions/23.md): every value R33 leaves unspecified is zero, so `vtype` is the legal setting SEW = 8,
LMUL = 1, and `vl` and `vstart` are 0. PRESUMED: the mode is M-mode. No byte of memory is placed. -/
def State.resetWith (c : Config) : State where
  cfg := c
  x := Vector.replicate 32 0#_
  pc := BitVec.ofNat _ c.resetPc
  v := Vector.replicate 32 0#_
  vtype := ⟨false, 0, 0⟩
  vl := 0#_
  vstart := 0#_
  mem := []
  priv := .machine
  mtvec := 0#_
  mepc := 0#_
  mcause := 0#_
  mtval := 0#_

/-- The machine right after reset, in the standard configuration (R33, R150). -/
def State.reset : State := State.resetWith Config.standard

end Sys2Proof.Machine
end

