-- ==== Sys2Proof/Machine/Ops.lean ====
section
/-! DEFINITION. The named operations over registers, memory and the pc, building a register from its bits, and taking
the one exception (R130 to R133). -/

namespace Sys2Proof.Machine

/-! ## Scalar registers (R20) -/

/-- `x[i]`; `x0` reads as 0 (R9, R20). -/
def State.readX (s : State) (i : RegNum) : BitVec s.cfg.xlen :=
  if i = 0 then 0#_ else s.x[i.val]

/-- `x[i] <- w`; a write to `x0` is discarded (R9, R20). -/
def State.writeX (s : State) (i : RegNum) (w : BitVec s.cfg.xlen) : State :=
  { s with x := if i = 0 then s.x else s.x.set i.val w }

/-! ## Vector registers (R22) -/

/-- `v[n]` (R9). -/
def State.readV (s : State) (n : RegNum) : BitVec s.cfg.vlen := s.v[n.val]

/-- `v[n] <- w` (R9). -/
def State.writeV (s : State) (n : RegNum) (w : BitVec s.cfg.vlen) : State :=
  { s with v := s.v.set n.val w }

/-! ## The pc and vstart -/

/-- `pc <- trunc_XLEN(pc + 4)` (R21). -/
def State.advancePc (s : State) : State := { s with pc := s.pc + 4#_ }

/-- `vstart <- 0` (R28). -/
def State.clearVstart (s : State) : State := { s with vstart := 0#_ }

/-! ## Memory (R9, R40) -/

/-- The byte at an address, if one is placed there. -/
def Memory.read : Memory → Nat → Option Byte
  | [], _ => none
  | (b, c) :: rest, a => if b = a then some c else Memory.read rest a

/-- Place a byte at an address, keeping the addresses rising. -/
def Memory.write : Memory → Nat → Byte → Memory
  | [], a, d => [(a, d)]
  | (b, c) :: rest, a, d =>
    if a < b then (a, d) :: (b, c) :: rest
    else if a = b then (a, d) :: rest
    else (b, c) :: Memory.write rest a d

/-- The `n` bytes from address `a` up, lowest first: `MemRead(a, n)` of R9 as its bytes. -/
def Memory.readBytes (m : Memory) (a : Nat) : Nat → Option (List Byte)
  | 0 => some []
  | n + 1 =>
    match m.read a, Memory.readBytes m (a + 1) n with
    | some b, some bs => some (b :: bs)
    | _, _ => none

/-- Place bytes from address `a` up: `MemWrite` of R9 on its bytes. No instruction uses it (R41). -/
def Memory.writeBytes (m : Memory) (a : Nat) : List Byte → Memory
  | [] => m
  | b :: bs => Memory.writeBytes (m.write a b) (a + 1) bs

/-- Instruction fetch (R42, R43): the four bytes at the pc, little-endian. The pc must be a multiple of 4. -/
def State.fetch (s : State) : Except Fault Word :=
  if s.pc.toNat % 4 ≠ 0 then .error (.fetchMisaligned s.pc.toNat)
  else
    match s.mem.readBytes s.pc.toNat 4 with
    | some [b0, b1, b2, b3] => .ok (wordOfBytes b0 b1 b2 b3)
    | _ => .error (.fetchNoText s.pc.toNat)

/-! ## Registers from their bits (R8) -/

/-- The number whose bits below `n` are given by `f`. -/
def bitsVal (f : Nat → Bool) : Nat → Nat
  | 0 => 0
  | n + 1 => bitsVal f n + (if f n then 2 ^ n else 0)

/-- The value of `w` bits whose bit `k` is `f k`. -/
def ofBits (w : Nat) (f : Nat → Bool) : BitVec w := BitVec.ofNat w (bitsVal f w)

/-! ## Taking the illegal-instruction exception (R130 to R134) -/

/-- The cause code of illegal instruction (R132; PRESUMED, general knowledge). -/
def illegalInstructionCause : Nat := 2

/-- The address a trap jumps to: `mtvec` with its two low bits read as 0, so that the pc stays a multiple of 4 (R43,
R133; PRESUMED, notes/assumptions/19.md). -/
def State.trapTarget (s : State) : BitVec s.cfg.xlen := s.mtvec &&& ~~~(3#_)

/-- Entry into an M-mode trap on the instruction `inst` (R132, R133): the pc and the cause are saved, the tval
register gets the instruction bits or zero, the mode becomes M-mode and the pc goes to the handler. Nothing else
changes, `vstart` included (D23). PRESUMED: the spec gives the steps from general knowledge
(notes/assumptions/19.md). -/
def State.enterTrap (s : State) (inst : Word) (tvalHoldsBits : Bool) : State :=
  { s with
    mepc := s.pc
    mcause := BitVec.ofNat _ illegalInstructionCause
    mtval := if tvalHoldsBits then inst.setWidth _ else 0#_
    priv := .machine
    pc := s.trapTarget }

/-- `raise IllegalInstruction(inst)` (R9): what it does is the TrapModel of the configuration (R133). -/
def raiseIllegal (inst : Word) (s : State) : Host.Outcome State Fault Refusal :=
  match s.cfg.trapModel with
  | .terminalFault => .fault (.illegalInstruction s.pc.toNat inst)
  | .machineTrap tvalHoldsBits => .next (s.enterTrap inst tvalHoldsBits)

end Sys2Proof.Machine
end

