-- ==== Sys2Proof/Machine/Operands.lean ====
section
/-! DEFINITION. The quantities `vtype` gives (R6, R26), the element accessors (R10, R25), the element classes (R11),
the legality checks (R131), and the whole-register results that the instructions write. -/

namespace Sys2Proof.Machine

/-! ## Quantities of the current setting -/

/-- SEW, the selected element width in bits (R26). -/
def State.sew (s : State) : Nat := 8 * 2 ^ s.vtype.vsew

/-- LMUL, the register group multiplier (R26). -/
def State.lmul (s : State) : Nat := 2 ^ s.vtype.vlmul.val

/-- MLEN = SEW / LMUL, the width in bits of one mask element (R6). -/
def State.mlen (s : State) : Nat := s.sew / s.lmul

/-- VLMAX = VLEN / MLEN, the number of mask elements of one register (R6). -/
def State.vlmax (s : State) : Nat := s.cfg.vlen / s.mlen

/-- EPR = VLEN / SEW, the number of SEW-bit elements of one register (R25). -/
def State.epr (s : State) : Nat := s.cfg.vlen / s.sew

/-! ## Elements -/

/-- Mask element `i` of a register: bits `i*MLEN + MLEN - 1 : i*MLEN` (R10; PRESUMED layout,
notes/assumptions/5.md). -/
def melem {n : Nat} (mlen : Nat) (w : BitVec n) (i : Nat) : BitVec mlen := w.extractLsb' (i * mlen) mlen

/-- The least-significant bit of mask element `i`, the only bit the instructions read (R10). -/
def mbit {n : Nat} (mlen : Nat) (w : BitVec n) (i : Nat) : Bool := w.getLsbD (i * mlen)

/-- Element `i`, SEW bits wide, of the register group that starts at register `vd` (R25; PRESUMED unstriped layout,
notes/assumptions/6.md). Registers past 31, which no aligned group reaches, read as 0. -/
def elem {n : Nat} (sew epr : Nat) (v : Vector (BitVec n) 32) (vd : RegNum) (i : Nat) : BitVec sew :=
  (v[vd.val + i / epr]?.getD 0#_).extractLsb' (i % epr * sew) sew

/-! ## Element classes (R11) -/

/-- `mask_on(i)`: the instruction is unmasked, or `v0` enables the element (R11, R24). -/
def State.maskOn (s : State) (vm : Bool) (i : Nat) : Bool := vm || mbit s.mlen (s.readV 0) i

/-- `prestart(i)` (R11). -/
def State.prestart (s : State) (i : Nat) : Bool := decide (i < s.vstart.toNat)

/-- `body(i)` (R11). -/
def State.body (s : State) (i : Nat) : Bool := decide (s.vstart.toNat ≤ i) && decide (i < s.vl.toNat)

/-- `active(i)` (R11). -/
def State.active (s : State) (vm : Bool) (i : Nat) : Bool := s.body i && s.maskOn vm i

/-- `inactive(i)` (R11). -/
def State.inactive (s : State) (vm : Bool) (i : Nat) : Bool := s.body i && !s.maskOn vm i

/-- `tail(i)`; the clause `vstart <= i` settles vl <= i < vstart in favour of unchanged (R11, D10;
notes/assumptions/9.md). -/
def State.tail (s : State) (i : Nat) : Bool :=
  decide (s.vl.toNat ≤ i) && decide (s.vstart.toNat ≤ i) && decide (i < s.vlmax)

/-- Element `i` is active and its bit in the source mask register is set (R90, R91, R100). -/
def State.activeSet (s : State) (vm : Bool) (vs2 : RegNum) (i : Nat) : Bool :=
  s.active vm i && mbit s.mlen (s.readV vs2) i

/-- Whether a tail element is written at all: it is, unless `vl = 0` and the switch VL0_WRITES_TAIL is off (D32, U8;
notes/assumptions/28.md). -/
def State.writesTail (s : State) : Bool := s.cfg.vl0WritesTail || s.vl.toNat != 0

/-! ## Counting and searching -/

/-- How many indices below `n` satisfy `p`. -/
def countBelow (p : Nat → Bool) : Nat → Nat
  | 0 => 0
  | n + 1 => countBelow p n + (p n).toNat

/-- The lowest index below `n` that satisfies `p`, if there is one. -/
def firstBelow (p : Nat → Bool) : Nat → Option Nat
  | 0 => none
  | n + 1 =>
    match firstBelow p n with
    | some i => some i
    | none => if p n then some n else none

/-! ## Legality checks, all made before anything is written (R130, R131) -/

/-- `vstart` is not 0 (R131). -/
def State.vstartNonzero (s : State) : Bool := s.vstart.toNat != 0

/-- The base of a register group is not a multiple of LMUL (R25, R131; PRESUMED, notes/assumptions/7.md). -/
def State.groupMisaligned (s : State) (vd : RegNum) : Bool := vd.val % s.lmul != 0

/-- Register `n` is one of `vd` to `vd + LMUL - 1` (R111). -/
def State.groupHas (s : State) (vd n : RegNum) : Bool :=
  decide (vd.val ≤ n.val) && decide (n.val < vd.val + s.lmul)

/-! ## Whole-register results -/

/-- The register that results from writing `zext_MLEN(b)` to every mask element `i` below VLMAX with `f i = some b`
and leaving the other bits of `old` (R10). -/
def State.maskResult (s : State) (old : BitVec s.cfg.vlen) (f : Nat → Option Bool) : BitVec s.cfg.vlen :=
  ofBits _ fun k =>
    if k / s.mlen < s.vlmax then
      match f (k / s.mlen) with
      | none => old.getLsbD k
      | some b => b && k % s.mlen == 0
    else old.getLsbD k

/-- Register `r` of a group after writing `trunc_SEW(e)` (R110) to every element `i` below VLMAX with
`g i = some e`, the other bits of `old` left (R25). -/
def State.groupResult (s : State) (g : Nat → Option Nat) (r : Nat) (old : BitVec s.cfg.vlen) :
    BitVec s.cfg.vlen :=
  ofBits _ fun k =>
    if r * s.epr + k / s.sew < s.vlmax then
      match g (r * s.epr + k / s.sew) with
      | none => old.getLsbD k
      | some e => e.testBit (k % s.sew)
    else old.getLsbD k

/-- Replace register `base + r` by `new r` of its value, for every `r < n` that names a register. -/
def updateRegs {w : Nat} (new : Nat → BitVec w → BitVec w) (base : Nat) :
    Nat → Vector (BitVec w) 32 → Vector (BitVec w) 32
  | 0, v => v
  | r + 1, v =>
    if h : base + r < 32 then (updateRegs new base r v).set (base + r) (new r v[base + r])
    else updateRegs new base r v

/-- Write `zext_MLEN(b)` to the mask elements of `v[vd]` that `f` selects (R10). -/
def State.writeMask (s : State) (vd : RegNum) (f : Nat → Option Bool) : State :=
  s.writeV vd (s.maskResult (s.readV vd) f)

/-- Write `trunc_SEW(e)` to the elements of the group `vd` that `g` selects: `elem(vd, i) <- e` (R25, R110). -/
def State.writeGroup (s : State) (vd : RegNum) (g : Nat → Option Nat) : State :=
  { s with v := updateRegs (s.groupResult g) vd.val s.lmul s.v }

/-! ## The CSR view (R26 to R28) -/

/-- The CSRs of the chapter. -/
inductive Csr
  | vstart
  | vl
  | vtype
deriving DecidableEq, Repr

/-- The CSR numbers (R26 to R28; PRESUMED, used by no instruction, notes/assumptions/32.md). -/
def csrNumber : Csr → BitVec 12
  | .vstart => 0x008#12
  | .vl => 0xC20#12
  | .vtype => 0xC21#12

/-- The value a CSR shows. `vtype` has `vlmul` in bits 1:0, `vsew` in bits 4:2, `vill` in bit XLEN - 1 and zeros
elsewhere (R26; PRESUMED, used by no instruction, notes/assumptions/32.md). -/
def State.csrValue (s : State) : Csr → BitVec s.cfg.xlen
  | .vstart => s.vstart
  | .vl => s.vl
  | .vtype =>
    BitVec.ofNat _ (s.vtype.vlmul.val + 4 * (s.vtype.vsew % 8) + s.vtype.vill.toNat * 2 ^ (s.cfg.xlen - 1))

end Sys2Proof.Machine
end

