-- ==== Sys2Proof/Machine/Flags.lean ====
section
/-! DEFINITION. The machine has no status flags: no instruction writes one (R24, R31). What this file holds are the
one-bit result functions: the eight operations of R71 to R78 and the three-way choice of R100. -/

namespace Sys2Proof.Machine

/-! ## The eight mask-logical operations: `a` from `vs2`, `b` from `vs1` -/

/-- R71: `a AND b`. -/
def opAnd (a b : Bool) : Bool := a && b
/-- R72: `NOT (a AND b)`. -/
def opNand (a b : Bool) : Bool := !(a && b)
/-- R73: `a AND (NOT b)`. -/
def opAndNot (a b : Bool) : Bool := a && !b
/-- R74: `a XOR b`. -/
def opXor (a b : Bool) : Bool := a ^^ b
/-- R75: `a OR b`. -/
def opOr (a b : Bool) : Bool := a || b
/-- R76: `NOT (a OR b)`. -/
def opNor (a b : Bool) : Bool := !(a || b)
/-- R77: `a OR (NOT b)`. -/
def opOrNot (a b : Bool) : Bool := a || !b
/-- R78: `NOT (a XOR b)`. -/
def opXnor (a b : Bool) : Bool := !(a ^^ b)

/-! ## The set-first family -/

/-- Which of the three set-first instructions (R100). -/
inductive FirstKind
  | sbf
  | sif
  | sof
deriving DecidableEq, Repr

/-- The value written to an active element before the first set one, or to every active element if there is none
(R100). -/
def beforeFirst : FirstKind → Bool
  | .sbf => true
  | .sif => true
  | .sof => false

/-- The value written to the first active set element (R100). -/
def atFirst : FirstKind → Bool
  | .sbf => false
  | .sif => true
  | .sof => true

/-- The value written to an active element after the first set one (R100). -/
def afterFirst : FirstKind → Bool
  | .sbf => false
  | .sif => false
  | .sof => false

/-- The value written to active element `i`, where `first` is the lowest active set element (R100). -/
def firstBit (kind : FirstKind) (first : Option Nat) (i : Nat) : Bool :=
  match first with
  | none => beforeFirst kind
  | some f => if i < f then beforeFirst kind else if i = f then atFirst kind else afterFirst kind

end Sys2Proof.Machine
end

