-- ==== Sys2Proof/Machine/IotaVid.lean ====
section
/-! DEFINITION. Vector iota and element index (43_iota_vid.md, R110 to R112). -/

namespace Sys2Proof.Machine

/-- What `viota.m` writes to element `i` of the group: 0 in the tail (D12; notes/assumptions/11.md), nothing to an
inactive element, and to an active element the number of active set elements below it (R111). -/
def State.iotaElem (s : State) (vs2 : RegNum) (vm : Bool) (i : Nat) : Option Nat :=
  if s.vl.toNat ≤ i then (if s.writesTail then some 0 else none)
  else if s.maskOn vm i then some (countBelow (s.activeSet vm vs2) i)
  else none

/-- The causes for which `viota.m` is illegal, in the order of R136: `vill`, group alignment, `vstart`, overlap with
`vs2`, overlap with `v0` (R111, R131). -/
def State.iotaIllegal (s : State) (vd vs2 : RegNum) (vm : Bool) : Bool :=
  s.vtype.vill || s.groupMisaligned vd || s.vstartNonzero || s.groupHas vd vs2 || (!vm && s.groupHas vd 0)

/-- `viota.m vd, vs2, vm` (R111). -/
def execViotaM (vd vs2 : RegNum) (vm : Bool) (s : State) : Host.Outcome State Fault Refusal :=
  if s.iotaIllegal vd vs2 vm then raiseIllegal (encode (.viotaM vd vs2 vm)) s
  else .next (s.writeGroup vd (s.iotaElem vs2 vm)).advancePc

/-- What `vid.v` writes to element `i` of the group: nothing before `vstart` or to an inactive element, 0 in the tail
(D12; notes/assumptions/11.md), the index to an active element (R112). -/
def State.vidElem (s : State) (vm : Bool) (i : Nat) : Option Nat :=
  if s.prestart i then none
  else if s.vl.toNat ≤ i then (if s.writesTail then some 0 else none)
  else if s.maskOn vm i then some i
  else none

/-- `vid.v vd, vm` (R112). The masked form whose group of more than one register starts at `v0` is refused (D16 (c);
notes/assumptions/14.md). -/
def execVidV (vd : RegNum) (vm : Bool) (s : State) : Host.Outcome State Fault Refusal :=
  if s.vtype.vill || s.groupMisaligned vd then raiseIllegal (encode (.vidV vd vm)) s
  else if !vm && vd == 0 && decide (1 < s.lmul) then .refused .vidMaskedGroupHoldsV0
  else .next (s.writeGroup vd (s.vidElem vm)).clearVstart.advancePc

end Sys2Proof.Machine
end

