-- ==== Sys2Proof/Machine/MaskLogical.lean ====
section
/-! DEFINITION. The eight mask-register logical instructions (40_mask_logical.md, R70 to R78). -/

namespace Sys2Proof.Machine

/-- What the common procedure of R70 writes to mask element `i`: nothing before `vstart`, the result bit in the body,
0 in the tail. The instructions are always unmasked, so every body element is active. -/
def State.logicalBit (s : State) (op : Bool → Bool → Bool) (vs2 vs1 : RegNum) (i : Nat) : Option Bool :=
  if s.prestart i then none
  else if s.body i then some (op (mbit s.mlen (s.readV vs2) i) (mbit s.mlen (s.readV vs1) i))
  else if s.writesTail then some false
  else none

/-- The common procedure of R70, for the instruction whose bits are `inst`. -/
def maskLogical (inst : Word) (op : Bool → Bool → Bool) (vd vs2 vs1 : RegNum) (s : State) :
    Host.Outcome State Fault Refusal :=
  if s.vtype.vill then raiseIllegal inst s
  else .next (s.writeMask vd (s.logicalBit op vs2 vs1)).clearVstart.advancePc

/-- `vmandnot.mm vd, vs2, vs1` (R73). -/
def execVmandnotMm (vd vs2 vs1 : RegNum) (s : State) : Host.Outcome State Fault Refusal :=
  maskLogical (encode (.vmandnotMm vd vs2 vs1)) opAndNot vd vs2 vs1 s

/-- `vmand.mm vd, vs2, vs1` (R71). -/
def execVmandMm (vd vs2 vs1 : RegNum) (s : State) : Host.Outcome State Fault Refusal :=
  maskLogical (encode (.vmandMm vd vs2 vs1)) opAnd vd vs2 vs1 s

/-- `vmor.mm vd, vs2, vs1` (R75). -/
def execVmorMm (vd vs2 vs1 : RegNum) (s : State) : Host.Outcome State Fault Refusal :=
  maskLogical (encode (.vmorMm vd vs2 vs1)) opOr vd vs2 vs1 s

/-- `vmxor.mm vd, vs2, vs1` (R74). -/
def execVmxorMm (vd vs2 vs1 : RegNum) (s : State) : Host.Outcome State Fault Refusal :=
  maskLogical (encode (.vmxorMm vd vs2 vs1)) opXor vd vs2 vs1 s

/-- `vmornot.mm vd, vs2, vs1` (R77). -/
def execVmornotMm (vd vs2 vs1 : RegNum) (s : State) : Host.Outcome State Fault Refusal :=
  maskLogical (encode (.vmornotMm vd vs2 vs1)) opOrNot vd vs2 vs1 s

/-- `vmnand.mm vd, vs2, vs1` (R72). -/
def execVmnandMm (vd vs2 vs1 : RegNum) (s : State) : Host.Outcome State Fault Refusal :=
  maskLogical (encode (.vmnandMm vd vs2 vs1)) opNand vd vs2 vs1 s

/-- `vmnor.mm vd, vs2, vs1` (R76). -/
def execVmnorMm (vd vs2 vs1 : RegNum) (s : State) : Host.Outcome State Fault Refusal :=
  maskLogical (encode (.vmnorMm vd vs2 vs1)) opNor vd vs2 vs1 s

/-- `vmxnor.mm vd, vs2, vs1` (R78). -/
def execVmxnorMm (vd vs2 vs1 : RegNum) (s : State) : Host.Outcome State Fault Refusal :=
  maskLogical (encode (.vmxnorMm vd vs2 vs1)) opXnor vd vs2 vs1 s

/-- The sixteen functions of R83: the outputs for the input pairs (src1, src2) = (0,0), (0,1), (1,0), (1,1), and the
instruction that computes them; the row 0 1 1 1 is the one R83 restores (C2). -/
def sixteenFunctions (vd src1 src2 : RegNum) : List ((Bool × Bool × Bool × Bool) × Instr) :=
  [((false, false, false, false), .vmxorMm vd vd vd),
   ((true, false, false, false), .vmnorMm vd src1 src2),
   ((false, true, false, false), .vmandnotMm vd src2 src1),
   ((true, true, false, false), .vmnandMm vd src1 src1),
   ((false, false, true, false), .vmandnotMm vd src1 src2),
   ((true, false, true, false), .vmnandMm vd src2 src2),
   ((false, true, true, false), .vmxorMm vd src1 src2),
   ((true, true, true, false), .vmnandMm vd src1 src2),
   ((false, false, false, true), .vmandMm vd src1 src2),
   ((true, false, false, true), .vmxnorMm vd src1 src2),
   ((false, true, false, true), .vmandMm vd src2 src2),
   ((true, true, false, true), .vmornotMm vd src2 src1),
   ((false, false, true, true), .vmandMm vd src1 src1),
   ((true, false, true, true), .vmornotMm vd src1 src2),
   ((false, true, true, true), .vmorMm vd src1 src2),
   ((true, true, true, true), .vmxnorMm vd vd vd)]

end Sys2Proof.Machine
end

