-- ==== Sys2Proof/Machine/MaskScalar.lean ====
section
/-! DEFINITION. Mask population count and find-first-set (41_mask_popc_first.md, R90 to R92). -/

namespace Sys2Proof.Machine

/-- The number of active set elements (R90). -/
def State.popCount (s : State) (vm : Bool) (vs2 : RegNum) : Nat :=
  countBelow (s.activeSet vm vs2) s.vl.toNat

/-- The lowest-numbered active set element, if there is one (R91, R100). -/
def State.firstActive (s : State) (vm : Bool) (vs2 : RegNum) : Option Nat :=
  firstBelow (s.activeSet vm vs2) s.vl.toNat

/-- An instruction that writes `result` to `x[rd]` and needs `vstart` = 0 (R90, R91). -/
def maskToScalar (inst : Word) (rd : RegNum) (s : State) (result : BitVec s.cfg.xlen) :
    Host.Outcome State Fault Refusal :=
  if s.vtype.vill || s.vstartNonzero then raiseIllegal inst s
  else .next (s.writeX rd result).advancePc

/-- `vpopc.m rd, vs2, vm` (R90). -/
def execVpopcM (rd vs2 : RegNum) (vm : Bool) (s : State) : Host.Outcome State Fault Refusal :=
  maskToScalar (encode (.vpopcM rd vs2 vm)) rd s (BitVec.ofNat _ (s.popCount vm vs2))

/-- `vfirst.m rd, vs2, vm` (R91): the index, or -1, which is all ones. -/
def execVfirstM (rd vs2 : RegNum) (vm : Bool) (s : State) : Host.Outcome State Fault Refusal :=
  maskToScalar (encode (.vfirstM rd vs2 vm)) rd s
    (match s.firstActive vm vs2 with
      | some i => BitVec.ofNat _ i
      | none => BitVec.allOnes _)

end Sys2Proof.Machine
end

