-- ==== Sys2Proof/Machine/SetFirst.lean ====
section
/-! DEFINITION. Set-before-first, set-including-first and set-only-first (42_mask_set_first.md, R100 to R103). -/

namespace Sys2Proof.Machine

/-- What the common procedure of R100 writes to mask element `i`: 0 in the tail, nothing to an inactive element (R100
(b), D11; notes/assumptions/10.md), the three-way choice to an active one. -/
def State.setFirstBit (s : State) (kind : FirstKind) (vs2 : RegNum) (vm : Bool) (i : Nat) : Option Bool :=
  if s.vl.toNat ≤ i then (if s.writesTail then some false else none)
  else if s.maskOn vm i then some (firstBit kind (s.firstActive vm vs2) i)
  else none

/-- The common procedure of R100, for the instruction whose bits are `inst`. Any overlap of `vd` with `vs2` or `v0`
is legal (R100 (c), D16). -/
def setFirst (inst : Word) (kind : FirstKind) (vd vs2 : RegNum) (vm : Bool) (s : State) :
    Host.Outcome State Fault Refusal :=
  if s.vtype.vill || s.vstartNonzero then raiseIllegal inst s
  else .next (s.writeMask vd (s.setFirstBit kind vs2 vm)).advancePc

/-- `vmsbf.m vd, vs2, vm` (R101). -/
def execVmsbfM (vd vs2 : RegNum) (vm : Bool) (s : State) : Host.Outcome State Fault Refusal :=
  setFirst (encode (.vmsbfM vd vs2 vm)) .sbf vd vs2 vm s

/-- `vmsof.m vd, vs2, vm` (R103). -/
def execVmsofM (vd vs2 : RegNum) (vm : Bool) (s : State) : Host.Outcome State Fault Refusal :=
  setFirst (encode (.vmsofM vd vs2 vm)) .sof vd vs2 vm s

/-- `vmsif.m vd, vs2, vm` (R102). -/
def execVmsifM (vd vs2 : RegNum) (vm : Bool) (s : State) : Host.Outcome State Fault Refusal :=
  setFirst (encode (.vmsifM vd vs2 vm)) .sif vd vs2 vm s

end Sys2Proof.Machine
end

