-- ==== Sys2Proof/Machine/Dispatch.lean ====
section
/-! DEFINITION. One arm per instruction, each one direct call of its meaning. -/

namespace Sys2Proof.Machine

/-- The meaning of one instruction. -/
def exec (i : Instr) (s : State) : Host.Outcome State Fault Refusal :=
  match i with
  | .vmandnotMm vd vs2 vs1 => Sys2Proof.Machine.execVmandnotMm vd vs2 vs1 s
  | .vmandMm vd vs2 vs1 => Sys2Proof.Machine.execVmandMm vd vs2 vs1 s
  | .vmorMm vd vs2 vs1 => Sys2Proof.Machine.execVmorMm vd vs2 vs1 s
  | .vmxorMm vd vs2 vs1 => Sys2Proof.Machine.execVmxorMm vd vs2 vs1 s
  | .vmornotMm vd vs2 vs1 => Sys2Proof.Machine.execVmornotMm vd vs2 vs1 s
  | .vmnandMm vd vs2 vs1 => Sys2Proof.Machine.execVmnandMm vd vs2 vs1 s
  | .vmnorMm vd vs2 vs1 => Sys2Proof.Machine.execVmnorMm vd vs2 vs1 s
  | .vmxnorMm vd vs2 vs1 => Sys2Proof.Machine.execVmxnorMm vd vs2 vs1 s
  | .vpopcM rd vs2 vm => Sys2Proof.Machine.execVpopcM rd vs2 vm s
  | .vfirstM rd vs2 vm => Sys2Proof.Machine.execVfirstM rd vs2 vm s
  | .vmsbfM vd vs2 vm => Sys2Proof.Machine.execVmsbfM vd vs2 vm s
  | .vmsofM vd vs2 vm => Sys2Proof.Machine.execVmsofM vd vs2 vm s
  | .vmsifM vd vs2 vm => Sys2Proof.Machine.execVmsifM vd vs2 vm s
  | .viotaM vd vs2 vm => Sys2Proof.Machine.execViotaM vd vs2 vm s
  | .vidV vd vm => Sys2Proof.Machine.execVidV vd vm s

end Sys2Proof.Machine
end

