-- ==== Sys2Proof/Machine/Step.lean ====
section
/-! DEFINITION. One step of the hart: fetch, decode, execute (R42, R60). -/

namespace Sys2Proof.Machine

/-- One step. An instruction executes; a reserved word raises illegal instruction (R57, R58); any other word is
refused (R59). -/
def step (s : State) : Host.Outcome State Fault Refusal :=
  match s.fetch with
  | .error f => .fault f
  | .ok w =>
    match decode w with
    | .instr i => exec i s
    | .reserved _ => raiseIllegal w s
    | .notInSpec => .refused (.notInSpec w)

/-- The state with an instruction's bytes placed at the pc, where the next step fetches it (R42). -/
def State.withFetchWord (s : State) (nbits w : Nat) : State :=
  { s with mem := s.mem.writeBytes s.pc.toNat (tableBytes nbits w) }

end Sys2Proof.Machine
end

