-- ==== Sys2Proof/Machine/Run.lean ====
section
/-! DEFINITION. Whether a step raises the exception, and a run of a program up to its end address (R155). -/

namespace Sys2Proof.Machine

/-- The same state with the TrapModel "terminal fault" (R133), under which a raised exception is visible as a fault. -/
def State.underTerminal (s : State) : State :=
  { s with cfg := { s.cfg with trapModel := .terminalFault } }

/-- The step raises illegal instruction, whatever the TrapModel makes of it (R130, R133). -/
def State.raises (s : State) : Bool :=
  match step s.underTerminal with
  | .fault (.illegalInstruction _ _) => true
  | _ => false

/-- The hart is at the end address of its program (R155). -/
abbrev State.AtEnd (s : State) (endPc : Nat) : Prop := s.pc.toNat = endPc

/-- The end state of a run of at most `fuel` steps: the state when the pc first reaches `endPc` (R155). A step that
raises illegal instruction, trap entry or not, that is refused, or that the fetch stops ends the run without one. -/
def State.runTo (endPc : Nat) : Nat → State → Option State
  | 0, s => if s.AtEnd endPc then some s else none
  | fuel + 1, s =>
    if s.AtEnd endPc then some s
    else if s.raises then none
    else
      match step s with
      | .next t => State.runTo endPc fuel t
      | .fault _ => none
      | .refused _ => none

end Sys2Proof.Machine
end

