-- ==== Sys2Proof/Safety.lean ====
section
/-! DEFINITION. The invariants of R30, the reset states R33 admits, and the end of a run (R155). -/

namespace Sys2Proof.Machine

/-- The state invariants of R30, with a legal configuration (R5), and a memory in canonical form inside the address
space of 2^XLEN bytes (R40). -/
structure State.Inv (s : State) : Prop where
  /-- The parameters have legal values (R5). -/
  config : s.cfg.legal = true
  /-- `x[0] = 0`. -/
  x0 : s.x[0] = 0#_
  /-- `pc mod 4 = 0`. -/
  pcAligned : s.pc.toNat % 4 = 0
  /-- If `vill = 0` then SEW <= ELEN. -/
  sewLe : s.vtype.vill = false → s.sew ≤ s.cfg.elen
  /-- If `vill = 0` then `vl <= VLMAX`. -/
  vlLe : s.vtype.vill = false → s.vl.toNat ≤ s.vlmax
  /-- The memory is in its canonical form. -/
  memWf : s.mem.wf
  /-- Every placed byte lies in the address space. -/
  memInSpace : ∀ c ∈ s.mem, c.1 < 2 ^ s.cfg.xlen

/-- The states right after reset that R33 admits: RESET_PC in the pc and the invariants; every other value is
unspecified. `State.reset` is one of them. -/
structure State.IsReset (s : State) : Prop where
  /-- The invariants, `x0` = 0 and a consistent `vtype` and `vl` among them. -/
  inv : s.Inv
  /-- `pc` = RESET_PC. -/
  pcReset : s.pc.toNat = s.cfg.resetPc

/-- The program that starts in `s` comes to its end in `t`: the pc reaches the end address, `t` is the state when it
first does, and no step before raised illegal instruction or was refused, under either TrapModel (R155). -/
def Completes (s : State) (endPc : Nat) (t : State) : Prop := ∃ fuel, s.runTo endPc fuel = some t

end Sys2Proof.Machine
end

