-- ==== Sys2Proof/Certificates/Slice0/Obligations.lean ====
section
/-! DEFINITION. The statements for the provers. A result statement gives the whole next state as an update of the old
one, so that whatever the update does not name is unchanged: memory, the scalar registers, `vl`, `vtype`, the trap
registers. New register contents are described element by element, in the words of the rule. -/

namespace Sys2Proof.Machine

/-- Element `i` is enabled by the mask and its bit in `vs2` is set, whatever `vl` and `vstart` are: the term of the
source's sum `vs2[i].LSB && v0[i].LSB` (R90). -/
def State.enabledSet (s : State) (vm : Bool) (vs2 : RegNum) (i : Nat) : Bool :=
  (vm || mbit s.mlen (s.readV 0) i) && mbit s.mlen (s.readV vs2) i

/-- `vl` = 0 in a configuration whose switch VL0_WRITES_TAIL is off: no destination element is written (D32, U8). -/
abbrev State.noTailWrite (s : State) : Prop := s.vl.toNat = 0 ∧ s.cfg.vl0WritesTail = false

/-- The `vm` operand as it is written: nothing when unmasked, `v0.t` when masked (R61). -/
def maskOperand : Bool → List AsmOperand
  | true => []
  | false => [.v0t]

/-- The constructor, the bit function of (`vs2`, `vs1`) and the match word of each mask-logical instruction (R71 to
R78). -/
def logicalRules : List ((RegNum → RegNum → RegNum → Instr) × (Bool → Bool → Bool) × Word) :=
  [(Instr.vmandMm, fun a b => a && b, 0x66002057#32),
   (Instr.vmnandMm, fun a b => !(a && b), 0x76002057#32),
   (Instr.vmandnotMm, fun a b => a && !b, 0x62002057#32),
   (Instr.vmxorMm, fun a b => a != b, 0x6E002057#32),
   (Instr.vmorMm, fun a b => a || b, 0x6A002057#32),
   (Instr.vmnorMm, fun a b => !(a || b), 0x7A002057#32),
   (Instr.vmornotMm, fun a b => a || !b, 0x72002057#32),
   (Instr.vmxnorMm, fun a b => a == b, 0x7E002057#32)]

/-- The constructor, the value of active element `i` in terms of the active set elements, and the match word of each
set-first instruction (R100 to R103). -/
def setFirstRules : List ((RegNum → RegNum → Bool → Instr) × ((Nat → Bool) → Nat → Bool) × Word) :=
  [(Instr.vmsbfM, fun a i => decide (∀ j < i + 1, a j = false), 0x5000A057#32),
   (Instr.vmsifM, fun a i => decide (∀ j < i, a j = false), 0x5001A057#32),
   (Instr.vmsofM, fun a i => a i && decide (∀ j < i, a j = false), 0x50012057#32)]

end Sys2Proof.Machine

section Statements
open Sys2Proof Sys2Proof.Machine

/-! ## Encoding and decoding -/

/-- R60: decoding the word of any instruction gives the instruction back, every operand at every value. -/
def Obligations.DecodeOfEncode : Prop :=
  ∀ i : Instr, decode (encode i) = .instr i

/-- R60: a word that decodes to an instruction is that instruction's word, so each instruction has one word. -/
def Obligations.EncodeOfDecode : Prop :=
  ∀ (w : Word) (i : Instr), decode w = .instr i → encode i = w

/-- 30_encoding.md section 2: a word `w` is the instruction of a row exactly when `w AND mask = match`. -/
def Obligations.RowMatchDecidesInstruction : Prop :=
  ∀ (w : Word) (j : Instr), j.row.covers w = true ↔ ∃ i, decode w = .instr i ∧ i.row = j.row

/-- R57, R58: the reserved words are the `vid.v` pattern with a non-zero `vs2` field and the mask-logical patterns with
bit 25 clear; the step raises illegal instruction on each, with the word's bits (D14, D15). -/
def Obligations.ReservedWordsRaise : Prop :=
  (∀ w : Word, decode w = .reserved .vidVs2NotZero ↔
    (w &&& 0xFC0FF07F#32 = 0x5008A057#32 ∧ w.extractLsb' 20 5 ≠ 0#5)) ∧
  (∀ w : Word, decode w = .reserved .maskLogicalMasked ↔ w &&& 0xE200707F#32 = 0x60002057#32) ∧
  (∀ (s : State) (w : Word) (k : ReservedKind), s.fetch = .ok w → decode w = .reserved k →
    step s = raiseIllegal w s)

/-- R59: every word outside the fifteen rows and the two reserved sets decodes to "not in this spec" and is refused by
the step, never executed and never an exception (D28). -/
def Obligations.OtherWordsRefused : Prop :=
  (∀ w : Word, decode w = .notInSpec ↔
    (∀ i : Instr, i.row.covers w = false) ∧
    ¬ (w &&& 0xFC0FF07F#32 = 0x5008A057#32 ∧ w.extractLsb' 20 5 ≠ 0#5) ∧
    w &&& 0xE200707F#32 ≠ 0x60002057#32) ∧
  (∀ (s : State) (w : Word), s.fetch = .ok w → decode w = .notInSpec → step s = .refused (.notInSpec w))

/-- R63 and 95_test_vectors.md 2.5: worked words decode to the instruction they stand for, at least one per family. -/
def Obligations.WorkedWordsDecode : Prop :=
  decode 0x6621A0D7#32 = .instr (.vmandMm 1 2 3) ∧
  decode 0x6221A0D7#32 = .instr (.vmandnotMm 1 2 3) ∧
  decode 0x4208A6D7#32 = .instr (.vfirstM 13 0 true) ∧
  decode 0x420827D7#32 = .instr (.vpopcM 15 0 true) ∧
  decode 0x5030A157#32 = .instr (.vmsbfM 2 3 false) ∧
  decode 0x52312157#32 = .instr (.vmsofM 2 3 true) ∧
  decode 0x5201A057#32 = .instr (.vmsifM 0 0 true) ∧
  decode 0x52082857#32 = .instr (.viotaM 16 0 true) ∧
  decode 0x5008A457#32 = .instr (.vidV 8 false)

/-- R61: the assembler line, mnemonic and operands in order, names one instruction only. -/
def Obligations.AssemblerLineNamesInstruction : Prop :=
  ∀ i j : Instr, i.asm = j.asm → i = j

/-- R61: the assembler line of each of the fifteen instructions: destination, `vs2`, `vs1`, and at the end nothing
(unmasked) or `v0.t` (masked). -/
def Obligations.AssemblerSyntax : Prop :=
  ∀ (vd rd vs2 vs1 : RegNum) (vm : Bool),
    (Instr.vmandMm vd vs2 vs1).asm = ⟨"vmand.mm", [.v vd, .v vs2, .v vs1]⟩ ∧
    (Instr.vmnandMm vd vs2 vs1).asm = ⟨"vmnand.mm", [.v vd, .v vs2, .v vs1]⟩ ∧
    (Instr.vmandnotMm vd vs2 vs1).asm = ⟨"vmandnot.mm", [.v vd, .v vs2, .v vs1]⟩ ∧
    (Instr.vmxorMm vd vs2 vs1).asm = ⟨"vmxor.mm", [.v vd, .v vs2, .v vs1]⟩ ∧
    (Instr.vmorMm vd vs2 vs1).asm = ⟨"vmor.mm", [.v vd, .v vs2, .v vs1]⟩ ∧
    (Instr.vmnorMm vd vs2 vs1).asm = ⟨"vmnor.mm", [.v vd, .v vs2, .v vs1]⟩ ∧
    (Instr.vmornotMm vd vs2 vs1).asm = ⟨"vmornot.mm", [.v vd, .v vs2, .v vs1]⟩ ∧
    (Instr.vmxnorMm vd vs2 vs1).asm = ⟨"vmxnor.mm", [.v vd, .v vs2, .v vs1]⟩ ∧
    (Instr.vpopcM rd vs2 vm).asm = ⟨"vpopc.m", .x rd :: .v vs2 :: maskOperand vm⟩ ∧
    (Instr.vfirstM rd vs2 vm).asm = ⟨"vfirst.m", .x rd :: .v vs2 :: maskOperand vm⟩ ∧
    (Instr.vmsbfM vd vs2 vm).asm = ⟨"vmsbf.m", .v vd :: .v vs2 :: maskOperand vm⟩ ∧
    (Instr.vmsifM vd vs2 vm).asm = ⟨"vmsif.m", .v vd :: .v vs2 :: maskOperand vm⟩ ∧
    (Instr.vmsofM vd vs2 vm).asm = ⟨"vmsof.m", .v vd :: .v vs2 :: maskOperand vm⟩ ∧
    (Instr.viotaM vd vs2 vm).asm = ⟨"viota.m", .v vd :: .v vs2 :: maskOperand vm⟩ ∧
    (Instr.vidV vd vm).asm = ⟨"vid.v", .v vd :: maskOperand vm⟩

/-- R62: the four shorthands as the assembler accepts them; each emits one mask-logical word, which decodes to the
mask-logical instruction, and no row of the opcode table bears a shorthand's mnemonic. -/
def Obligations.PseudoInstructionsAssemble : Prop :=
  (∀ vd vs : RegNum,
    (Pseudo.vmcpyM vd vs).asm = ⟨"vmcpy.m", [.v vd, .v vs]⟩ ∧ (Pseudo.vmclrM vd).asm = ⟨"vmclr.m", [.v vd]⟩ ∧
    (Pseudo.vmsetM vd).asm = ⟨"vmset.m", [.v vd]⟩ ∧ (Pseudo.vmnotM vd vs).asm = ⟨"vmnot.m", [.v vd, .v vs]⟩) ∧
  ∀ p : Pseudo,
    (∃ r ∈ logicalRules, ∃ a b c : RegNum, p.expand = r.1 a b c) ∧
    decode (encode p.expand) = .instr p.expand ∧
    ∀ i : Instr, i.row.mnemonic ≠ p.asm.mnemonic

/-! ## The step -/

/-- R42, R60: when the four bytes at an aligned pc decode to an instruction, the step is exec of it on that state, and
nothing besides. -/
def Obligations.StepRunsDecodedInstruction : Prop :=
  ∀ (s : State) (b0 b1 b2 b3 : Byte) (i : Instr),
    s.pc.toNat % 4 = 0 → s.mem.readBytes s.pc.toNat 4 = some [b0, b1, b2, b3] →
    decode (wordOfBytes b0 b1 b2 b3) = .instr i → step s = exec i s

/-- R42: the byte at `pc + k` is bits 8k+7 down to 8k of the fetched word. -/
def Obligations.FetchIsLittleEndian : Prop :=
  ∀ (s : State) (b : Fin 4 → Byte), s.pc.toNat % 4 = 0 →
    (∀ k : Fin 4, s.mem.read (s.pc.toNat + k.val) = some (b k)) →
    ∃ w, s.fetch = .ok w ∧ ∀ k : Fin 4, w.extractLsb' (8 * k.val) 8 = b k

/-- The word of any instruction placed at an aligned pc is what the next step runs. -/
def Obligations.PlacedInstructionRunsNext : Prop :=
  ∀ (s : State) (i : Instr), s.pc.toNat % 4 = 0 →
    step (s.withFetchWord 32 (encode i).toNat) = exec i (s.withFetchWord 32 (encode i).toNat)

/-- R46 (D21): no step changes the program text, byte by byte, nor the configuration, `vtype` or `vl`. -/
def Obligations.StepKeepsTextAndSetting : Prop :=
  ∀ s t : State, step s = .next t →
    (∀ a, t.mem.read a = s.mem.read a) ∧ t.cfg = s.cfg ∧ t.vtype = s.vtype ∧ t.vl.toNat = s.vl.toNat

/-! ## Reset and invariants -/

/-- R33: for every legal configuration the model's reset state has `x0` = 0, the pc at RESET_PC and a consistent
`vtype` and `vl`, so it is one of the reset states the rule admits; its other values, every register zero, the trap
registers among them, and M-mode are the model's choice (notes/assumptions/23.md). -/
def Obligations.ResetIsAdmitted : Prop :=
  Config.standard.legal = true ∧ State.reset = State.resetWith Config.standard ∧
  ∀ c : Config, c.legal = true →
    (State.resetWith c).IsReset ∧ (State.resetWith c).cfg = c ∧ (State.resetWith c).readX 0 = 0#_ ∧
    (State.resetWith c).pc.toNat = c.resetPc ∧
    (∀ n, (State.resetWith c).readX n = 0#_ ∧ (State.resetWith c).readV n = 0#_) ∧
    (State.resetWith c).vtype = ⟨false, 0, 0⟩ ∧ (State.resetWith c).vl = 0#_ ∧
    (State.resetWith c).vstart = 0#_ ∧ (State.resetWith c).mem = [] ∧ (State.resetWith c).priv = .machine ∧
    (State.resetWith c).mtvec = 0#_ ∧ (State.resetWith c).mepc = 0#_ ∧ (State.resetWith c).mcause = 0#_ ∧
    (State.resetWith c).mtval = 0#_

/-- The invariant of R30 holds in the reset state of every legal configuration. -/
def Obligations.ResetSatisfiesInvariant : Prop :=
  ∀ c : Config, c.legal = true → (State.resetWith c).Inv

/-- R30 (D9, D19): every step keeps the invariants, from every state that has them. -/
def Obligations.StepKeepsInvariant : Prop :=
  ∀ s t : State, s.Inv → step s = .next t → t.Inv

/-! ## State and its views -/

/-- R20 (D4): `x0` reads 0 and a write to it is discarded; any other register reads back what was written and leaves the
rest alone. -/
def Obligations.ScalarRegistersReadBack : Prop :=
  ∀ (s : State) (w : BitVec s.cfg.xlen),
    s.readX 0 = 0#_ ∧ s.writeX 0 w = s ∧
    ∀ i j : RegNum, i ≠ 0 → ((s.writeX i w).readX j).toNat = if j = i then w.toNat else (s.readX j).toNat

/-- R6: under the invariants MLEN = SEW / LMUL is a power of two with 1 <= MLEN <= ELEN, and VLMAX, the number of mask
elements that fill one register exactly (R23), is the number of SEW-bit elements of a group. -/
def Obligations.MaskElementsFillRegister : Prop :=
  ∀ s : State, s.Inv → s.vtype.vill = false →
    s.mlen = s.sew / s.lmul ∧ (∃ k, s.mlen = 2 ^ k) ∧ 1 ≤ s.mlen ∧ s.mlen ≤ s.cfg.elen ∧
    s.vlmax * s.mlen = s.cfg.vlen ∧ s.vlmax = s.cfg.vlen * s.lmul / s.sew ∧ s.vlmax = s.lmul * s.epr

/-- R7: under the invariants VLMAX and `vl` are at most 2^31 and every element index has the sign bit of an XLEN-bit
integer clear; no setting gives more elements than VLEN, which R7 infers from R6. The bound on VLEN that the invariants
carry is the model's choice, which R7 offers (notes/assumptions/33.md), and `vl` <= VLMAX is D9
(notes/assumptions/8.md). -/
def Obligations.VectorLengthBounded : Prop :=
  ∀ s : State, s.Inv → s.vtype.vill = false →
    s.vlmax ≤ 2 ^ 31 ∧ s.vl.toNat ≤ 2 ^ 31 ∧ s.vlmax ≤ s.cfg.vlen ∧
    ∀ i < s.vlmax, (BitVec.ofNat s.cfg.xlen i).toNat = i ∧ (BitVec.ofNat s.cfg.xlen i).msb = false

/-- R11 (D10): every index below VLMAX falls in exactly one of prestart, active, inactive, tail, masked or not. -/
def Obligations.ElementClassesPartition : Prop :=
  ∀ (s : State) (vm : Bool) (i : Nat), i < s.vlmax →
    (s.prestart i).toNat + (s.active vm i).toNat + (s.inactive vm i).toNat + (s.tail i).toNat = 1

/-- R26 (general knowledge, notes/assumptions/32.md): the value the `vtype` CSR shows, for a SEW exponent that its
three-bit field can hold. -/
def Obligations.VtypeCsrLayout : Prop :=
  ∀ s : State, s.vtype.vsew < 8 →
    (s.csrValue .vtype).extractLsb' 0 2 = BitVec.ofNat 2 s.vtype.vlmul.val ∧
    (s.csrValue .vtype).extractLsb' 2 3 = BitVec.ofNat 3 s.vtype.vsew ∧
    (s.csrValue .vtype).msb = s.vtype.vill ∧
    ∀ k, 5 ≤ k → k < s.cfg.xlen - 1 → (s.csrValue .vtype).getLsbD k = false

/-! ## Mask-logical instructions -/

/-- R71 to R78: with `vill` clear each instruction completes; element `i` of `vd` keeps its value before `vstart`, takes
the zero-extended bit function of the sources' bits in the body, and is zeroed in the tail; `vstart` becomes 0, the pc
advances, nothing else changes. Its word matches its row. An element from `vl` to `vstart` keeps its value by the spec's
choice D10 (notes/assumptions/9.md), and the match words are general knowledge (D1; notes/assumptions/1.md). The two
cases left out are `vill` set (`VillAlwaysRaises`, D17) and `vl` = 0 with the switch off (`ZeroLengthSwitchOff`,
D32). -/
def Obligations.MaskLogicalResult : Prop :=
  ∀ p ∈ logicalRules, ∀ (vd vs2 vs1 : RegNum) (s : State),
    (s.vtype.vill = false → ¬ s.noTailWrite → ∃ w : BitVec s.cfg.vlen,
      exec (p.1 vd vs2 vs1) s =
        .next { s with v := s.v.set vd.val w, vstart := 0#_, pc := s.pc + 4#_ } ∧
      ∀ i < s.vlmax, melem s.mlen w i =
        if i < s.vstart.toNat then melem s.mlen (s.readV vd) i
        else if i < s.vl.toNat then
          (BitVec.ofBool (p.2.1 (mbit s.mlen (s.readV vs2) i) (mbit s.mlen (s.readV vs1) i))).setWidth s.mlen
        else 0#_) ∧
    encode (p.1 vd vs2 vs1) &&& 0xFE00707F#32 = p.2.2

/-- R83: the table holds each of the sixteen functions of two inputs, and each of its rows computes its function of
the bits of src1 and src2 in every body element, leaving the elements before `vstart` and zeroing the tail. The row
0 1 1 1 is one the spec restores (C2, from R75); an element from `vl` to `vstart` is left by the spec's choice D10
(notes/assumptions/9.md); where the tail is not written is D32 (notes/assumptions/28.md). -/
def Obligations.SixteenFunctionsComputed : Prop :=
  ∀ vd src1 src2 : RegNum,
    (∀ a b c d : Bool, ∃ i, ((a, b, c, d), i) ∈ sixteenFunctions vd src1 src2) ∧
    ∀ p ∈ sixteenFunctions vd src1 src2, ∀ s : State, s.vtype.vill = false → ¬ s.noTailWrite →
      ∃ w : BitVec s.cfg.vlen,
        exec p.2 s = .next { s with v := s.v.set vd.val w, vstart := 0#_, pc := s.pc + 4#_ } ∧
        ∀ i < s.vlmax, melem s.mlen w i =
          if i < s.vstart.toNat then melem s.mlen (s.readV vd) i
          else if i < s.vl.toNat then
            (BitVec.ofBool
              (match mbit s.mlen (s.readV src1) i, mbit s.mlen (s.readV src2) i with
              | false, false => p.1.1
              | false, true => p.1.2.1
              | true, false => p.1.2.2.1
              | true, true => p.1.2.2.2)).setWidth s.mlen
          else 0#_

/-- R79 to R82: the instruction each of the four shorthands stands for, and what it does: copy and invert the bits of
`vs`, clear every element from `vstart` up, set the body elements only; the tail is zeroed (where it is written,
D32). The last clause gives the four worked words, which are general knowledge (D1; notes/assumptions/1.md). The rules
infer these effects from R70; an element from `vl` to `vstart` is left by the spec's choice D10
(notes/assumptions/9.md). -/
def Obligations.PseudoInstructionEffects : Prop :=
  (∀ (vd vs : RegNum) (s : State), s.vtype.vill = false → ¬ s.noTailWrite →
    ∀ p ∈ [(Pseudo.vmcpyM vd vs, Instr.vmandMm vd vs vs, fun i => mbit s.mlen (s.readV vs) i),
        (Pseudo.vmclrM vd, Instr.vmxorMm vd vd vd, fun _ => false),
        (Pseudo.vmsetM vd, Instr.vmxnorMm vd vd vd, fun _ => true),
        (Pseudo.vmnotM vd vs, Instr.vmnandMm vd vs vs, fun i => !mbit s.mlen (s.readV vs) i)],
      p.1.expand = p.2.1 ∧
      ∃ w : BitVec s.cfg.vlen,
        exec p.2.1 s = .next { s with v := s.v.set vd.val w, vstart := 0#_, pc := s.pc + 4#_ } ∧
        ∀ i < s.vlmax, melem s.mlen w i =
          if i < s.vstart.toNat then melem s.mlen (s.readV vd) i
          else if i < s.vl.toNat then (BitVec.ofBool (p.2.2 i)).setWidth s.mlen
          else 0#_) ∧
  encode (Pseudo.vmcpyM 1 2).expand = 0x662120D7#32 ∧ encode (Pseudo.vmclrM 1).expand = 0x6E10A0D7#32 ∧
  encode (Pseudo.vmsetM 1).expand = 0x7E10A0D7#32 ∧ encode (Pseudo.vmnotM 1 2).expand = 0x762120D7#32

/-- R134, R70: a mask-logical instruction stopped before element `k` resumes there: from any state in which the
elements below `k` already hold their results and `vstart` is `k`, it gives the state it gives when run whole, when
its destination is none of its sources; what `vd` holds from `k` up does not matter. The two statements after it take
in the other operands and `vid.v`. -/
def Obligations.MaskLogicalResumesAtVstart : Prop :=
  ∀ p ∈ logicalRules, ∀ (vd vs2 vs1 : RegNum) (s : State), vd ≠ vs2 → vd ≠ vs1 →
    s.Inv → s.vtype.vill = false → s.vstart.toNat = 0 → 0 < s.vl.toNat →
    ∃ w : BitVec s.cfg.vlen,
      exec (p.1 vd vs2 vs1) s =
        .next { s with v := s.v.set vd.val w, vstart := 0#_, pc := s.pc + 4#_ } ∧
      ∀ (k : BitVec s.cfg.xlen) (u : BitVec s.cfg.vlen), k.toNat ≤ s.vl.toNat →
        (∀ i < k.toNat, melem s.mlen u i = melem s.mlen w i) →
        exec (p.1 vd vs2 vs1) { s with v := s.v.set vd.val u, vstart := k } = exec (p.1 vd vs2 vs1) s

/-- R134, R70: a mask-logical instruction stopped before element `k` resumes there whatever registers it names, its
destination among its sources or not, and whatever `vl` is: from the state in which the elements below `k` hold their
results and those from `k` up their old values, and `vstart` is `k`, it gives the state it gives when run whole. -/
def Obligations.PartlyRunMaskLogicalResumes : Prop :=
  ∀ p ∈ logicalRules, ∀ (vd vs2 vs1 : RegNum) (s : State),
    s.Inv → s.vtype.vill = false → s.vstart.toNat = 0 →
    ∃ w : BitVec s.cfg.vlen,
      exec (p.1 vd vs2 vs1) s =
        .next { s with v := s.v.set vd.val w, vstart := 0#_, pc := s.pc + 4#_ } ∧
      ∀ (k : BitVec s.cfg.xlen) (u : BitVec s.cfg.vlen), k.toNat ≤ s.vl.toNat →
        (∀ i < k.toNat, melem s.mlen u i = melem s.mlen w i) →
        (∀ i < s.vlmax, k.toNat ≤ i → melem s.mlen u i = melem s.mlen (s.readV vd) i) →
        exec (p.1 vd vs2 vs1) { s with v := s.v.set vd.val u, vstart := k } = exec (p.1 vd vs2 vs1) s

/-- R134, R112: `vid.v`, masked or not, stopped before element `k` resumes there: from the state in which the elements
of the group below `k` hold their results and those from `k` up their old values, and `vstart` is `k`, it gives the
state it gives when run whole, wherever it is not refused (D16 (c)) and the group base is aligned (D8). -/
def Obligations.PartlyRunVidResumes : Prop :=
  ∀ (vd : RegNum) (vm : Bool) (s : State),
    s.Inv → s.vtype.vill = false → vd.val % s.lmul = 0 → ¬ (vm = false ∧ vd = 0 ∧ 1 < s.lmul) →
    s.vstart.toNat = 0 →
    ∃ w : Vector (BitVec s.cfg.vlen) 32,
      exec (.vidV vd vm) s = .next { s with v := w, vstart := 0#_, pc := s.pc + 4#_ } ∧
      ∀ (k : BitVec s.cfg.xlen) (u : Vector (BitVec s.cfg.vlen) 32), k.toNat ≤ s.vl.toNat →
        (∀ n : RegNum, ¬ (vd.val ≤ n.val ∧ n.val < vd.val + s.lmul) → u[n.val] = s.v[n.val]) →
        (∀ i < k.toNat, elem s.sew s.epr u vd i = elem s.sew s.epr w vd i) →
        (∀ i < s.vlmax, k.toNat ≤ i → elem s.sew s.epr u vd i = elem s.sew s.epr s.v vd i) →
        exec (.vidV vd vm) { s with v := u, vstart := k } = exec (.vidV vd vm) s

/-- D32, U8 (the spec's own choice; notes/assumptions/28.md): with `vl` = 0 and the switch VL0_WRITES_TAIL off, an
instruction with a vector destination completes and leaves every vector register alone, `vpopc.m` writes 0 and
`vfirst.m` writes -1. -/
def Obligations.ZeroLengthSwitchOff : Prop :=
  ∀ s : State, s.noTailWrite → s.vtype.vill = false →
    (∀ p ∈ logicalRules, ∀ vd vs2 vs1 : RegNum,
      exec (p.1 vd vs2 vs1) s = .next { s with vstart := 0#_, pc := s.pc + 4#_ }) ∧
    (∀ (vd : RegNum) (vm : Bool), vd.val % s.lmul = 0 → ¬ (vm = false ∧ vd = 0 ∧ 1 < s.lmul) →
      exec (.vidV vd vm) s = .next { s with vstart := 0#_, pc := s.pc + 4#_ }) ∧
    (s.vstart.toNat = 0 → ∀ (vd vs2 : RegNum) (vm : Bool),
      (∀ p ∈ setFirstRules, exec (p.1 vd vs2 vm) s = .next { s with pc := s.pc + 4#_ }) ∧
      (vd.val % s.lmul = 0 → ¬ (vd.val ≤ vs2.val ∧ vs2.val < vd.val + s.lmul) → (vm = true ∨ vd ≠ 0) →
        exec (.viotaM vd vs2 vm) s = .next { s with pc := s.pc + 4#_ }) ∧
      exec (.vpopcM vd vs2 vm) s =
        .next { s with x := if vd = 0 then s.x else s.x.set vd.val 0#_, pc := s.pc + 4#_ } ∧
      exec (.vfirstM vd vs2 vm) s =
        .next { s with x := if vd = 0 then s.x else s.x.set vd.val (BitVec.allOnes _), pc := s.pc + 4#_ })

/-! ## Mask to scalar -/

/-- R90: with `vill` clear and `vstart` = 0, `vpopc.m` writes to `x[rd]` the number of indices below `vl` that the mask
enables and whose bit in `vs2` is set (discarded when `rd` is `x0`), advances the pc and changes nothing else;
otherwise it raises illegal instruction (`vill`: D17; `x0`: D29). -/
def Obligations.VpopcCountsActiveSetElements : Prop :=
  ∀ (rd vs2 : RegNum) (vm : Bool) (s : State),
    (s.vtype.vill = false → s.vstart.toNat = 0 →
      (List.range s.vl.toNat).countP (s.enabledSet vm vs2) ≤ s.vl.toNat ∧
      exec (.vpopcM rd vs2 vm) s =
        .next { s with
          x := if rd = 0 then s.x
            else s.x.set rd.val (BitVec.ofNat _ ((List.range s.vl.toNat).countP (s.enabledSet vm vs2)))
          pc := s.pc + 4#_ }) ∧
    (s.vtype.vill = true ∨ s.vstart.toNat ≠ 0 →
      exec (.vpopcM rd vs2 vm) s = raiseIllegal (encode (.vpopcM rd vs2 vm)) s) ∧
    encode (.vpopcM rd vs2 vm) &&& 0xFC0FF07F#32 = 0x40082057#32

/-- R91: with `vill` clear and `vstart` = 0, `vfirst.m` writes to `x[rd]` the index of the lowest-numbered active
element whose bit is set, or -1 if there is none (discarded when `rd` is `x0`), advances the pc and changes nothing
else; otherwise it raises illegal instruction (`vill`: D17; `x0`: D29). -/
def Obligations.VfirstFindsLowestActiveSetElement : Prop :=
  ∀ (rd vs2 : RegNum) (vm : Bool) (s : State),
    (s.vtype.vill = false → s.vstart.toNat = 0 → ∃ r : BitVec s.cfg.xlen,
      exec (.vfirstM rd vs2 vm) s =
        .next { s with x := if rd = 0 then s.x else s.x.set rd.val r, pc := s.pc + 4#_ } ∧
      ((∀ i < s.vl.toNat, s.enabledSet vm vs2 i = false) → r = BitVec.allOnes _) ∧
      ∀ i < s.vl.toNat, s.enabledSet vm vs2 i = true → (∀ j < i, s.enabledSet vm vs2 j = false) →
        r.toNat = i) ∧
    (s.vtype.vill = true ∨ s.vstart.toNat ≠ 0 →
      exec (.vfirstM rd vs2 vm) s = raiseIllegal (encode (.vfirstM rd vs2 vm)) s) ∧
    encode (.vfirstM rd vs2 vm) &&& 0xFC0FF07F#32 = 0x4008A057#32

/-- R92: after `vfirst.m` the highest bit of `x[rd]` is set exactly when no active element of `vs2` had its bit
set. -/
def Obligations.VfirstNegativeMeansNoneFound : Prop :=
  ∀ (rd vs2 : RegNum) (vm : Bool) (s : State),
    s.Inv → s.vtype.vill = false → s.vstart.toNat = 0 → rd ≠ 0 →
    ∃ t, exec (.vfirstM rd vs2 vm) s = .next t ∧
      ((t.readX rd).msb = true ↔ ∀ i < s.vl.toNat, s.enabledSet vm vs2 i = false)

/-! ## Set-first family -/

/-- R100 to R103: with `vill` clear and `vstart` = 0 each instruction completes; an active element of `vd` gets its
value from the active set elements at and below it, an inactive one keeps its value, the tail is cleared; nothing
else changes but the pc. Otherwise it raises illegal instruction. Its word matches its row. Inactive elements: D11;
the tail at `vl` = 0 with the switch VL0_WRITES_TAIL off keeps its value: D32, U8 (notes/assumptions/28.md); `vill`:
D17. -/
def Obligations.SetFirstResult : Prop :=
  ∀ p ∈ setFirstRules, ∀ (vd vs2 : RegNum) (vm : Bool) (s : State),
    (s.vtype.vill = false → s.vstart.toNat = 0 → ∃ w : BitVec s.cfg.vlen,
      exec (p.1 vd vs2 vm) s = .next { s with v := s.v.set vd.val w, pc := s.pc + 4#_ } ∧
      ∀ i < s.vlmax, melem s.mlen w i =
        if s.vl.toNat ≤ i then (if s.noTailWrite then melem s.mlen (s.readV vd) i else 0#_)
        else if (vm || mbit s.mlen (s.readV 0) i) = true then
          (BitVec.ofBool (p.2.1 (s.enabledSet vm vs2) i)).setWidth s.mlen
        else melem s.mlen (s.readV vd) i) ∧
    (s.vtype.vill = true ∨ s.vstart.toNat ≠ 0 →
      exec (p.1 vd vs2 vm) s = raiseIllegal (encode (p.1 vd vs2 vm)) s) ∧
    encode (p.1 vd vs2 vm) &&& 0xFC0FF07F#32 = p.2.2

/-- R100, corner cases: unmasked, in every body element the `vmsif.m` result is `vmsbf.m` OR `vmsof.m` and those two
are never both 1; `vmsof.m` sets at most one element; the number that `vmsbf.m` sets is the `vfirst.m` index when one
is found and `vl` otherwise. -/
def Obligations.SetFirstFamilyLaws : Prop :=
  ∀ (vd vs2 rd : RegNum) (s : State),
    s.Inv → s.vtype.vill = false → s.vstart.toNat = 0 → rd ≠ 0 →
    ∃ b f o t : State,
      exec (.vmsbfM vd vs2 true) s = .next b ∧ exec (.vmsifM vd vs2 true) s = .next f ∧
      exec (.vmsofM vd vs2 true) s = .next o ∧ exec (.vfirstM rd vs2 true) s = .next t ∧
      (∀ i < s.vl.toNat,
        mbit s.mlen (f.readV vd) i = (mbit s.mlen (b.readV vd) i || mbit s.mlen (o.readV vd) i) ∧
        (mbit s.mlen (b.readV vd) i && mbit s.mlen (o.readV vd) i) = false) ∧
      (List.range s.vl.toNat).countP (mbit s.mlen (o.readV vd)) ≤ 1 ∧
      (List.range s.vl.toNat).countP (mbit s.mlen (b.readV vd)) =
        if (t.readX rd).msb then s.vl.toNat else (t.readX rd).toNat

/-! ## Register-group instructions -/

/-- R110, R111: `viota.m` raises illegal instruction on the causes of its rule; otherwise an active element of the
group gets the number of active set elements below it cut to SEW bits, an inactive one keeps its value, the tail is
zeroed, the registers outside the group are unchanged, and nothing else changes but the pc. Alignment: D8; tail: D12,
kept at `vl` = 0 with the switch VL0_WRITES_TAIL off: D32, U8 (notes/assumptions/28.md); `vill`: D17. -/
def Obligations.ViotaWritesPrefixCounts : Prop :=
  ∀ (vd vs2 : RegNum) (vm : Bool) (s : State), s.Inv →
    (s.vtype.vill = false → vd.val % s.lmul = 0 → s.vstart.toNat = 0 →
      ¬ (vd.val ≤ vs2.val ∧ vs2.val < vd.val + s.lmul) → (vm = true ∨ vd ≠ 0) →
      ∃ w : Vector (BitVec s.cfg.vlen) 32,
        exec (.viotaM vd vs2 vm) s = .next { s with v := w, pc := s.pc + 4#_ } ∧
        (∀ n : RegNum, ¬ (vd.val ≤ n.val ∧ n.val < vd.val + s.lmul) → w[n.val] = s.v[n.val]) ∧
        ∀ i < s.vlmax, elem s.sew s.epr w vd i =
          if s.vl.toNat ≤ i then (if s.noTailWrite then elem s.sew s.epr s.v vd i else 0#_)
          else if (vm || mbit s.mlen (s.readV 0) i) = true then
            BitVec.ofNat s.sew ((List.range i).countP (s.enabledSet vm vs2))
          else elem s.sew s.epr s.v vd i) ∧
    (s.vtype.vill = true ∨ vd.val % s.lmul ≠ 0 ∨ s.vstart.toNat ≠ 0 ∨
        (vd.val ≤ vs2.val ∧ vs2.val < vd.val + s.lmul) ∨ (vm = false ∧ vd = 0) →
      exec (.viotaM vd vs2 vm) s = raiseIllegal (encode (.viotaM vd vs2 vm)) s) ∧
    encode (.viotaM vd vs2 vm) &&& 0xFC0FF07F#32 = 0x50082057#32

/-- R110, R112: `vid.v` raises illegal instruction on a misaligned group base or `vill`; the masked form whose group
of more than one register starts at `v0` is refused; otherwise an active element from `vstart` up gets its index cut
to SEW bits, elements before `vstart` and inactive ones keep their value, the tail is zeroed, the registers outside
the group are unchanged, `vstart` becomes 0 and nothing else changes but the pc. Alignment: D8; elements from `vl` to
`vstart`: D10; tail: D12, kept at `vl` = 0 with the switch VL0_WRITES_TAIL off: D32, U8 (notes/assumptions/28.md); the
refusal: D16 (c); `vill`: D17. -/
def Obligations.VidWritesIndices : Prop :=
  ∀ (vd : RegNum) (vm : Bool) (s : State), s.Inv →
    (s.vtype.vill = false → vd.val % s.lmul = 0 → ¬ (vm = false ∧ vd = 0 ∧ 1 < s.lmul) →
      ∃ w : Vector (BitVec s.cfg.vlen) 32,
        exec (.vidV vd vm) s = .next { s with v := w, vstart := 0#_, pc := s.pc + 4#_ } ∧
        (∀ n : RegNum, ¬ (vd.val ≤ n.val ∧ n.val < vd.val + s.lmul) → w[n.val] = s.v[n.val]) ∧
        ∀ i < s.vlmax, elem s.sew s.epr w vd i =
          if i < s.vstart.toNat then elem s.sew s.epr s.v vd i
          else if s.vl.toNat ≤ i then (if s.noTailWrite then elem s.sew s.epr s.v vd i else 0#_)
          else if (vm || mbit s.mlen (s.readV 0) i) = true then BitVec.ofNat s.sew i
          else elem s.sew s.epr s.v vd i) ∧
    (s.vtype.vill = true ∨ vd.val % s.lmul ≠ 0 →
      exec (.vidV vd vm) s = raiseIllegal (encode (.vidV vd vm)) s) ∧
    (s.vtype.vill = false → vm = false → vd = 0 → 1 < s.lmul →
      exec (.vidV vd vm) s = .refused .vidMaskedGroupHoldsV0) ∧
    encode (.vidV vd vm) &&& 0xFDFFF07F#32 = 0x5008A057#32

/-- R110: the value that `viota.m` and `vid.v` write to an enabled body element is the count or the index with its
least-significant SEW bits retained, and that is the count or the index itself unless VLMAX > 2^SEW. The rule infers
the second part, and it rests on `vl` <= VLMAX (D9; notes/assumptions/8.md). A `vid.v` that starts at `vstart` is
`VidWritesIndices`. -/
def Obligations.ElementValuesTruncated : Prop :=
  ∀ (vd vs2 : RegNum) (vm : Bool) (s : State), s.Inv →
    s.vtype.vill = false → vd.val % s.lmul = 0 → s.vstart.toNat = 0 →
    ¬ (vd.val ≤ vs2.val ∧ vs2.val < vd.val + s.lmul) → (vm = true ∨ vd ≠ 0) →
    ∃ t u : State, exec (.viotaM vd vs2 vm) s = .next t ∧ exec (.vidV vd vm) s = .next u ∧
      ∀ i < s.vl.toNat, (vm || mbit s.mlen (s.readV 0) i) = true →
        (elem s.sew s.epr t.v vd i).toNat = (List.range i).countP (s.enabledSet vm vs2) % 2 ^ s.sew ∧
        (elem s.sew s.epr u.v vd i).toNat = i % 2 ^ s.sew ∧
        (s.vlmax ≤ 2 ^ s.sew →
          (elem s.sew s.epr t.v vd i).toNat = (List.range i).countP (s.enabledSet vm vs2) ∧
          (elem s.sew s.epr u.v vd i).toNat = i)

/-- R112: unmasked, with `vstart` = 0, `vid.v vd` gives the state that `viota.m vd, vs2` gives when every body element
of `vs2` has its bit set. -/
def Obligations.VidIsIotaOfSetMask : Prop :=
  ∀ (vd vs2 : RegNum) (s : State),
    s.vtype.vill = false → vd.val % s.lmul = 0 → s.vstart.toNat = 0 →
    ¬ (vd.val ≤ vs2.val ∧ vs2.val < vd.val + s.lmul) →
    (∀ i < s.vl.toNat, mbit s.mlen (s.readV vs2) i = true) →
    ∃ t, exec (.viotaM vd vs2 true) s = .next t ∧ exec (.vidV vd true) s = .next t

/-- R111: the count that `viota.m` would write past its last element, the value of the last body element plus that
element's own bit, is what `vpopc.m` with the same operands returns, both cut to SEW bits (unmasked, at least one
element). -/
def Obligations.IotaRunningCountIsPopcount : Prop :=
  ∀ (vd vs2 rd : RegNum) (s : State), s.Inv →
    s.vtype.vill = false → vd.val % s.lmul = 0 → s.vstart.toNat = 0 →
    ¬ (vd.val ≤ vs2.val ∧ vs2.val < vd.val + s.lmul) → 0 < s.vl.toNat → rd ≠ 0 →
    ∃ w : Vector (BitVec s.cfg.vlen) 32, ∃ t : State,
      exec (.viotaM vd vs2 true) s = .next { s with v := w, pc := s.pc + 4#_ } ∧
      exec (.vpopcM rd vs2 true) s = .next t ∧
      elem s.sew s.epr w vd (s.vl.toNat - 1) +
          BitVec.ofNat s.sew (mbit s.mlen (s.readV vs2) (s.vl.toNat - 1)).toNat =
        BitVec.ofNat s.sew (t.readX rd).toNat

/-! ## Exceptions and whole-machine rules -/

/-- R26, D17 (the spec's own choice; notes/assumptions/15.md): with `vill` set every instruction raises illegal
instruction before doing anything else. -/
def Obligations.VillAlwaysRaises : Prop :=
  ∀ (i : Instr) (s : State), s.vtype.vill = true → exec i s = raiseIllegal (encode i) s

/-- R131 to R133, D22: with the terminal TrapModel an instruction stops with a fault exactly on its causes, and the
fault is illegal instruction with the address of the instruction and its 32 bits; a reserved word faults the same
way. -/
def Obligations.IllegalExactlyOnCauses : Prop :=
  ∀ s : State, s.cfg.trapModel = .terminalFault →
    (∀ i : Instr,
      ((∃ f, exec i s = .fault f) ↔
        s.vtype.vill = true ∨
        match i with
        | .vmandnotMm _ _ _ | .vmandMm _ _ _ | .vmorMm _ _ _ | .vmxorMm _ _ _
        | .vmornotMm _ _ _ | .vmnandMm _ _ _ | .vmnorMm _ _ _ | .vmxnorMm _ _ _ => False
        | .vpopcM _ _ _ | .vfirstM _ _ _ | .vmsbfM _ _ _ | .vmsofM _ _ _ | .vmsifM _ _ _ =>
          s.vstart.toNat ≠ 0
        | .viotaM vd vs2 vm =>
          vd.val % s.lmul ≠ 0 ∨ s.vstart.toNat ≠ 0 ∨
          (vd.val ≤ vs2.val ∧ vs2.val < vd.val + s.lmul) ∨ (vm = false ∧ vd = 0)
        | .vidV vd _ => vd.val % s.lmul ≠ 0) ∧
      ∀ f, exec i s = .fault f → f = .illegalInstruction s.pc.toNat (encode i)) ∧
    ∀ (w : Word) (k : ReservedKind), s.fetch = .ok w → decode w = .reserved k →
      step s = .fault (.illegalInstruction s.pc.toNat w)

/-- R14, with the one refusal of R112: under the terminal TrapModel an instruction completes, or faults with illegal
instruction, or is the masked `vid.v` over `v0`, which may be refused; there is no other outcome. -/
def Obligations.InstructionOutcomes : Prop :=
  ∀ (i : Instr) (s : State), s.cfg.trapModel = .terminalFault →
    (∃ t, exec i s = .next t) ∨
    exec i s = .fault (.illegalInstruction s.pc.toNat (encode i)) ∨
    (i = .vidV 0 false ∧ exec i s = .refused .vidMaskedGroupHoldsV0)

/-- R132, R133 (general knowledge; notes/assumptions/19.md): under the other TrapModel the exception enters an M-mode
trap: the pc is saved, the cause is 2, the tval register gets the bits or zero, the mode is M-mode, the pc goes to
`mtvec` with its two low bits 0, and nothing else changes, `vstart` included (D23). -/
def Obligations.TrapEntryState : Prop :=
  ∀ (s : State) (inst : Word) (b : Bool), s.cfg.trapModel = .machineTrap b →
    ∃ target : BitVec s.cfg.xlen,
      raiseIllegal inst s = .next { s with
        mepc := s.pc
        mcause := 2#_
        mtval := if b then inst.setWidth _ else 0#_
        priv := .machine
        pc := target } ∧
      target.toNat = s.mtvec.toNat / 4 * 4

/-- R21, R28, R31: an instruction that completes (terminal TrapModel) advances the pc by 4 modulo 2^XLEN and leaves
`vstart` = 0; it changes no scalar register but the `rd` of `vpopc.m` and `vfirst.m`, no vector register but its `vd`
or its group, no byte of memory, and nothing else of the state. -/
def Obligations.CompletedInstructionFrame : Prop :=
  ∀ (i : Instr) (s t : State), s.cfg.trapModel = .terminalFault → exec i s = .next t →
    t.pc.toNat = (s.pc.toNat + 4) % 2 ^ s.cfg.xlen ∧ t.vstart.toNat = 0 ∧
    (∀ n : RegNum,
      (match i with
        | .vpopcM rd _ _ | .vfirstM rd _ _ => n ≠ rd
        | _ => True) → (t.readX n).toNat = (s.readX n).toNat) ∧
    (∀ n : RegNum,
      (match i with
        | .vmandnotMm vd _ _ | .vmandMm vd _ _ | .vmorMm vd _ _ | .vmxorMm vd _ _
        | .vmornotMm vd _ _ | .vmnandMm vd _ _ | .vmnorMm vd _ _ | .vmxnorMm vd _ _
        | .vmsbfM vd _ _ | .vmsofM vd _ _ | .vmsifM vd _ _ => n ≠ vd
        | .viotaM vd _ _ | .vidV vd _ => ¬ (vd.val ≤ n.val ∧ n.val < vd.val + s.lmul)
        | .vpopcM _ _ _ | .vfirstM _ _ _ => True) → (t.readV n).toNat = (s.readV n).toNat) ∧
    (∀ a, t.mem.read a = s.mem.read a) ∧
    t.cfg = s.cfg ∧ t.vtype = s.vtype ∧ t.vl.toNat = s.vl.toNat ∧ t.priv = s.priv ∧
    t.mtvec.toNat = s.mtvec.toNat ∧ t.mepc.toNat = s.mepc.toNat ∧
    t.mcause.toNat = s.mcause.toNat ∧ t.mtval.toNat = s.mtval.toNat

/-- R130, R133, R155: whether a step raises the exception, said for both TrapModels. With the terminal one it is a
fault of that kind; a step that raises is `raiseIllegal` of the fetched word; a step that gives a next state without
raising completed an instruction, so the pc is 4 further on and neither the mode nor a trap register has changed. -/
def Obligations.StepRaises : Prop :=
  ∀ s : State,
    (s.cfg.trapModel = .terminalFault →
      (s.raises = true ↔ ∃ pc w, step s = .fault (.illegalInstruction pc w))) ∧
    (s.raises = true → ∃ w, s.fetch = .ok w ∧ step s = raiseIllegal w s) ∧
    (s.raises = false → ∀ t, step s = .next t →
      t.pc.toNat = (s.pc.toNat + 4) % 2 ^ s.cfg.xlen ∧ t.priv = s.priv ∧ t.mepc.toNat = s.mepc.toNat ∧
      t.mcause.toNat = s.mcause.toNat ∧ t.mtval.toNat = s.mtval.toNat)

/-- R155 (D22): a run ends when the pc first reaches the end address, in the state of that moment, of which there is
at most one; a step that raises illegal instruction, under either TrapModel, or that is refused ends the run without
success. -/
def Obligations.RunEndsAtFirstArrival : Prop :=
  ∀ (s : State) (endPc : Nat),
    (∀ t u, Completes s endPc t → Completes s endPc u → t = u ∧ t.AtEnd endPc) ∧
    (s.AtEnd endPc → ∀ t, Completes s endPc t ↔ t = s) ∧
    (¬ s.AtEnd endPc → ∀ t, Completes s endPc t ↔
      s.raises = false ∧ ∃ u, step s = .next u ∧ Completes u endPc t)

/-- R41: no instruction reads or writes memory: whatever the memory holds, the outcome is the same, the memory of the
next state is the one it started with, and no instruction faults for an access. -/
def Obligations.InstructionsIgnoreMemory : Prop :=
  ∀ (i : Instr) (s : State) (m : Memory),
    match exec i s with
    | .next t => exec i { s with mem := m } = .next { t with mem := m } ∧ ∀ a, t.mem.read a = s.mem.read a
    | .fault f => exec i { s with mem := m } = .fault f ∧ ∃ pc inst, f = .illegalInstruction pc inst
    | .refused r => exec i { s with mem := m } = .refused r

/-- R138 (D25): an instruction does the same in every mode; with the terminal TrapModel the mode itself is untouched. -/
def Obligations.InstructionsIgnoreMode : Prop :=
  ∀ (i : Instr) (s : State) (p : Priv), s.cfg.trapModel = .terminalFault →
    match exec i s with
    | .next t => t.priv = s.priv ∧ exec i { s with priv := p } = .next { t with priv := p }
    | .fault f => exec i { s with priv := p } = .fault f
    | .refused r => exec i { s with priv := p } = .refused r

/-- R111: a `viota.m` whose destination is its source, or which is masked and writes `v0`, raises illegal instruction
in every state. -/
def Obligations.IllFormedAlwaysRaises : Prop :=
  ∀ (i : Instr) (s : State), i.wellFormed = false → exec i s = raiseIllegal (encode i) s

end Statements
end

