-- ==== Sys2Proof/Laws/Bits.lean ====
section
/-! SUPPORT. What building a register from its bits, counting, searching and updating registers give. -/

namespace Sys2Proof.Machine

theorem bitsVal_lt (f : Nat → Bool) (n : Nat) : bitsVal f n < 2 ^ n := by
  induction n with
  | zero => simp [bitsVal]
  | succ n ih => simp only [bitsVal, Nat.pow_succ]; split <;> omega

theorem testBit_bitsVal (f : Nat → Bool) (n k : Nat) : (bitsVal f n).testBit k = (decide (k < n) && f k) := by
  induction n with
  | zero => simp [bitsVal]
  | succ n ih =>
    have hlt := bitsVal_lt f n
    by_cases hf : f n
    · rw [bitsVal, if_pos hf, Nat.add_comm]
      rcases Nat.lt_trichotomy k n with h | rfl | h
      · rw [Nat.testBit_two_pow_add_gt h, ih]; simp [h, Nat.lt_succ_of_lt h]
      · rw [Nat.testBit_two_pow_add_eq, Nat.testBit_lt_two_pow hlt]; simp [hf]
      · have hk : 2 ^ n + bitsVal f n < 2 ^ k :=
          calc 2 ^ n + bitsVal f n < 2 ^ n + 2 ^ n := by omega
            _ = 2 ^ (n + 1) := by omega
            _ ≤ 2 ^ k := Nat.pow_le_pow_right (by omega) h
        rw [Nat.testBit_lt_two_pow hk]; simp; omega
    · rw [bitsVal, if_neg hf, Nat.add_zero, ih]
      by_cases h : k = n
      · subst h; simp [hf]
      · have : (k < n + 1) = (k < n) := by simp; omega
        simp [this]

/-- Bit `k` of a register built from `f` is `f k`. -/
@[simp] theorem getLsbD_ofBits (w : Nat) (f : Nat → Bool) (k : Nat) :
    (ofBits w f).getLsbD k = (decide (k < w) && f k) := by
  simp [ofBits, BitVec.getLsbD_ofNat, testBit_bitsVal]

/-- `countBelow` counts. -/
theorem countBelow_eq_countP (p : Nat → Bool) (n : Nat) : countBelow p n = (List.range n).countP p := by
  induction n with
  | zero => rfl
  | succ n ih => simp [countBelow, ih, List.range_succ, List.countP_append, List.countP_singleton, Bool.toNat, Bool.cond_eq_ite]

theorem countBelow_le (p : Nat → Bool) (n : Nat) : countBelow p n ≤ n := by
  induction n with
  | zero => simp [countBelow]
  | succ n ih => simp only [countBelow]; have := Bool.toNat_le (p n); omega

/-- What `firstBelow` answers: the lowest index that satisfies `p`, or none when no index below `n` does. -/
theorem firstBelow_eq_some_iff (p : Nat → Bool) (n i : Nat) :
    firstBelow p n = some i ↔ i < n ∧ p i = true ∧ ∀ j < i, p j = false := by
  induction n generalizing i with
  | zero => simp [firstBelow]
  | succ n ih =>
    simp only [firstBelow]
    cases hf : firstBelow p n with
    | some k =>
      obtain ⟨hk, hp, hl⟩ := (ih k).1 hf
      simp only [Option.some.injEq]
      constructor
      · rintro rfl; exact ⟨by omega, hp, hl⟩
      · rintro ⟨_, hpi, hli⟩
        rcases Nat.lt_trichotomy k i with h | h | h
        · simp [hli k h] at hp
        · exact h
        · simp [hl i h] at hpi
    | none =>
      have hnone : ∀ j < n, p j = false := by
        intro j hj
        induction j using Nat.strong_induction_on with
        | _ j jh =>
          cases hpj : p j with
          | false => rfl
          | true =>
            have := (ih j).2 ⟨hj, hpj, fun m hm => jh m hm (by omega)⟩
            simp [hf] at this
      by_cases hpn : p n
      · simp only [hpn, if_true, Option.some.injEq]
        constructor
        · rintro rfl; exact ⟨by omega, hpn, hnone⟩
        · rintro ⟨hi, hpi, _⟩
          by_contra h
          simp [hnone i (by omega)] at hpi
      · simp only [hpn, if_false, Bool.false_eq_true, reduceCtorEq, false_iff]
        rintro ⟨hi, hpi, _⟩
        rcases Nat.lt_or_ge i n with h | h
        · simp [hnone i h] at hpi
        · have : i = n := by omega
          subst this; exact hpn hpi

theorem firstBelow_eq_none_iff (p : Nat → Bool) (n : Nat) :
    firstBelow p n = none ↔ ∀ j < n, p j = false := by
  constructor
  · intro h j hj
    induction j using Nat.strong_induction_on with
    | _ j jh =>
      cases hpj : p j with
      | false => rfl
      | true =>
        have := (firstBelow_eq_some_iff p n j).2 ⟨hj, hpj, fun m hm => jh m hm (by omega)⟩
        simp [h] at this
  · intro h
    cases hf : firstBelow p n with
    | none => rfl
    | some k =>
      obtain ⟨hk, hp, _⟩ := (firstBelow_eq_some_iff p n k).1 hf
      simp [h k hk] at hp

/-- Register `k` after a group update: registers `base` to `base + n - 1` take their new value, the others stay. -/
theorem updateRegs_getElem {w : Nat} (new : Nat → BitVec w → BitVec w) (base n : Nat) (v : Vector (BitVec w) 32)
    (k : Nat) (hk : k < 32) :
    (updateRegs new base n v)[k] = if base ≤ k ∧ k < base + n then new (k - base) v[k] else v[k] := by
  induction n with
  | zero => simp [updateRegs]
  | succ n ih =>
    rw [updateRegs]
    split
    · next h =>
      rw [Vector.getElem_set]
      split
      · next e => subst e; simp
      · next e =>
        rw [ih]
        have : (base ≤ k ∧ k < base + (n + 1)) ↔ (base ≤ k ∧ k < base + n) := by omega
        simp [this]
    · next h =>
      rw [ih]
      have : (base ≤ k ∧ k < base + (n + 1)) ↔ (base ≤ k ∧ k < base + n) := by omega
      simp [this]

end Sys2Proof.Machine
end

