-- ==== Sys2Proof/Laws/Decode.lean ====
section
/-! SUPPORT. The fields of a word built from its fields, and the word rebuilt from them. -/

namespace Sys2Proof

/-- Each bit of a word built by `opMvvWord` comes from its field (R51). -/
theorem getLsbD_opMvvWord (f6 : BitVec 6) (vm : Bool) (s2 : RegNum) (s1 : BitVec 5) (d : RegNum) (i : Nat)
    (hi : i < 32) :
    (opMvvWord f6 vm s2 s1 d).getLsbD i =
      if i < 7 then opV.getLsbD i else if i < 12 then (BitVec.ofFin (w := 5) d).getLsbD (i - 7)
      else if i < 15 then opMvv.getLsbD (i - 12) else if i < 20 then s1.getLsbD (i - 15)
      else if i < 25 then (BitVec.ofFin (w := 5) s2).getLsbD (i - 20) else if i < 26 then vm
      else f6.getLsbD (i - 26) := by
  interval_cases i <;> simp [opMvvWord, opMvv, opV]

section Fields
variable (f6 : BitVec 6) (vm : Bool) (s2 : RegNum) (s1 : BitVec 5) (d : RegNum)

@[simp] theorem opMvvWord_opcode : (opMvvWord f6 vm s2 s1 d).opcode = opV := by
  ext i hi
  have : i < 32 := by omega
  simp [Word.opcode, getLsbD_opMvvWord, this, hi, ← BitVec.getLsbD_eq_getElem]

@[simp] theorem opMvvWord_funct3 : (opMvvWord f6 vm s2 s1 d).funct3 = opMvv := by
  ext i hi
  rw [← BitVec.getLsbD_eq_getElem, ← BitVec.getLsbD_eq_getElem, Word.funct3, BitVec.getLsbD_extractLsb',
    getLsbD_opMvvWord _ _ _ _ _ _ (by omega)]
  interval_cases i <;> simp

@[simp] theorem opMvvWord_vs1 : (opMvvWord f6 vm s2 s1 d).vs1 = s1 := by
  ext i hi
  rw [← BitVec.getLsbD_eq_getElem, ← BitVec.getLsbD_eq_getElem, Word.vs1, BitVec.getLsbD_extractLsb',
    getLsbD_opMvvWord _ _ _ _ _ _ (by omega)]
  interval_cases i <;> simp

@[simp] theorem opMvvWord_funct6 : (opMvvWord f6 vm s2 s1 d).funct6 = f6 := by
  ext i hi
  rw [← BitVec.getLsbD_eq_getElem, ← BitVec.getLsbD_eq_getElem, Word.funct6, BitVec.getLsbD_extractLsb',
    getLsbD_opMvvWord _ _ _ _ _ _ (by omega)]
  interval_cases i <;> simp

@[simp] theorem opMvvWord_vm : (opMvvWord f6 vm s2 s1 d).vm = vm := by
  rw [Word.vm, getLsbD_opMvvWord _ _ _ _ _ _ (by omega)]
  simp

theorem opMvvWord_rdField : (opMvvWord f6 vm s2 s1 d).extractLsb' 7 5 = BitVec.ofFin (w := 5) d := by
  ext i hi
  rw [← BitVec.getLsbD_eq_getElem, ← BitVec.getLsbD_eq_getElem, BitVec.getLsbD_extractLsb',
    getLsbD_opMvvWord _ _ _ _ _ _ (by omega)]
  interval_cases i <;> simp

theorem opMvvWord_vs2Field : (opMvvWord f6 vm s2 s1 d).extractLsb' 20 5 = BitVec.ofFin (w := 5) s2 := by
  ext i hi
  rw [← BitVec.getLsbD_eq_getElem, ← BitVec.getLsbD_eq_getElem, BitVec.getLsbD_extractLsb',
    getLsbD_opMvvWord _ _ _ _ _ _ (by omega)]
  interval_cases i <;> simp

@[simp] theorem opMvvWord_rd : (opMvvWord f6 vm s2 s1 d).rd = d := by
  rw [Word.rd, opMvvWord_rdField]

@[simp] theorem opMvvWord_vs2 : (opMvvWord f6 vm s2 s1 d).vs2 = s2 := by
  rw [Word.vs2, opMvvWord_vs2Field]

end Fields

/-- A word of the OPMVV format is the one its fields build (R51). -/
theorem opMvvWord_fields (w : Word) (h : w.opcode = opV) (h' : w.funct3 = opMvv) :
    opMvvWord w.funct6 w.vm w.vs2 w.vs1 w.rd = w := by
  apply BitVec.eq_of_getLsbD_eq
  intro i hi
  have key : ∀ {n : Nat} (lo k : Nat), k < n → (w.extractLsb' lo n).getLsbD k = w.getLsbD (lo + k) := by
    intro n lo k hk; simp [hk]
  rw [getLsbD_opMvvWord _ _ _ _ _ _ hi, ← h, ← h']
  simp only [Word.opcode, Word.funct3, Word.vs1, Word.funct6, Word.vm, Word.rd, Word.vs2, BitVec.ofFin_toFin]
  split
  · rw [key 0 i (by omega), Nat.zero_add]
  split
  · rw [key 7 _ (by omega)]; congr 1; omega
  split
  · rw [key 12 _ (by omega)]; congr 1; omega
  split
  · rw [key 15 _ (by omega)]; congr 1; omega
  split
  · rw [key 20 _ (by omega)]; congr 1; omega
  split
  · congr 1; omega
  · rw [key 26 _ (by omega)]; congr 1; omega

/-- The first byte in memory is the low byte of the word (R42). -/
theorem getLsbD_wordOfBytes (b0 b1 b2 b3 : Byte) (i : Nat) (hi : i < 32) :
    (wordOfBytes b0 b1 b2 b3).getLsbD i =
      if i < 8 then b0.getLsbD i else if i < 16 then b1.getLsbD (i - 8)
      else if i < 24 then b2.getLsbD (i - 16) else b3.getLsbD (i - 24) := by
  interval_cases i <;> simp [wordOfBytes]

/-- Bytes taken from a number and put together again give its low 32 bits (R42). -/
theorem wordOfBytes_byteOf (n : Nat) :
    wordOfBytes (byteOf n 0) (byteOf n 1) (byteOf n 2) (byteOf n 3) = BitVec.ofNat 32 n := by
  apply BitVec.eq_of_getLsbD_eq
  intro i hi
  have key : ∀ k j, j < 8 → (byteOf n k).getLsbD j = n.testBit (8 * k + j) := by
    intro k j hj
    have : n / 256 ^ k = n >>> (8 * k) := by rw [Nat.shiftRight_eq_div_pow, Nat.pow_mul]
    rw [byteOf, BitVec.getLsbD_ofNat, this, Nat.testBit_shiftRight]; simp [hj]
  rw [getLsbD_wordOfBytes _ _ _ _ _ hi, BitVec.getLsbD_ofNat]
  simp only [hi, decide_true, Bool.true_and]
  split
  · rw [key 0 i (by omega)]; congr 1; omega
  split
  · rw [key 1 _ (by omega)]; congr 1; omega
  split
  · rw [key 2 _ (by omega)]; congr 1; omega
  · rw [key 3 _ (by omega)]; congr 1; omega

end Sys2Proof
end

