-- ==== Sys2Proof/Laws/Memory.lean ====
section
/-! SUPPORT. Reading after writing, and that every memory operation keeps the canonical form. -/

namespace Sys2Proof.Machine

/-- Reading one byte after writing one byte. -/
@[simp] theorem Memory.read_write (m : Memory) (a : Nat) (d : Byte) (b : Nat) :
    (m.write a d).read b = if b = a then some d else m.read b := by
  induction m with
  | nil => simp [Memory.write, Memory.read, eq_comm]
  | cons p rest ih =>
    obtain ⟨c, e⟩ := p
    simp only [Memory.write]
    split
    · simp [Memory.read, eq_comm]
    · split
      · next h => subst h; simp only [Memory.read]; split <;> simp_all [eq_comm]
      · next h =>
        simp only [Memory.read, ih]
        split
        · next hb => subst hb; simp [Ne.symm h]
        · rfl

theorem Memory.mem_write {m : Memory} {a : Nat} {d : Byte} {c : Host.Cell} (h : c ∈ m.write a d) :
    c = (a, d) ∨ c ∈ m := by
  induction m with
  | nil => simpa [Memory.write] using h
  | cons p rest ih =>
    obtain ⟨b, e⟩ := p
    simp only [Memory.write] at h
    split at h
    · simpa using h
    · split at h
      · simp only [List.mem_cons] at h ⊢; tauto
      · simp only [List.mem_cons] at h ⊢
        rcases h with h | h
        · exact .inr (.inl h)
        · rcases ih h with h | h <;> tauto

/-- Writing a byte keeps the canonical form. -/
theorem Memory.wf_write {m : Memory} (h : m.wf) (a : Nat) (d : Byte) : (m.write a d).wf := by
  induction m with
  | nil => simp [Memory.write, Memory.wf]
  | cons p rest ih =>
    obtain ⟨b, e⟩ := p
    simp only [Memory.wf, List.pairwise_cons] at h ih
    simp only [Memory.write]
    split
    · next hab =>
      simp only [Memory.wf, List.pairwise_cons, List.mem_cons]
      exact ⟨by rintro q (rfl | hq); exact hab; exact Nat.lt_trans hab (h.1 q hq), h⟩
    · split
      · next hab => subst hab; simpa only [Memory.wf, List.pairwise_cons] using h
      · next h1 h2 =>
        simp only [Memory.wf, List.pairwise_cons]
        refine ⟨fun q hq => ?_, ih h.2⟩
        rcases Memory.mem_write hq with rfl | hq
        · omega
        · exact h.1 q hq

/-- Writing bytes keeps the canonical form. -/
theorem Memory.wf_writeBytes {m : Memory} (h : m.wf) (a : Nat) (bs : List Byte) : (m.writeBytes a bs).wf := by
  induction bs generalizing m a with
  | nil => exact h
  | cons b bs ih => exact ih (Memory.wf_write h a b) (a + 1)

/-- The reset memory is in canonical form. -/
theorem resetWith_mem_wf (c : Config) : (State.resetWith c).mem.wf := List.Pairwise.nil

/-- Reading a byte after writing bytes from address `a` up: the byte written there, or the old one. -/
theorem Memory.read_writeBytes (m : Memory) (a : Nat) (bs : List Byte) (b : Nat) :
    (m.writeBytes a bs).read b = if a ≤ b then (bs[b - a]?).or (m.read b) else m.read b := by
  induction bs generalizing m a with
  | nil => simp [Memory.writeBytes]
  | cons d bs ih =>
    rw [Memory.writeBytes, ih]
    rcases Nat.lt_trichotomy b a with h | rfl | h
    · have h1 : ¬ a + 1 ≤ b := by omega
      have h2 : ¬ a ≤ b := by omega
      have h3 : b ≠ a := by omega
      simp [h1, h2, h3]
    · simp
    · obtain ⟨k, rfl⟩ := Nat.exists_eq_add_of_lt h
      have h1 : a + 1 ≤ a + k + 1 := by omega
      have h2 : a ≤ a + k + 1 := by omega
      have h3 : a + k + 1 ≠ a := by omega
      have h4 : a + k + 1 - (a + 1) = k := by omega
      have h5 : a + k + 1 - a = k + 1 := by omega
      simp [h1, h2, h3, h4, h5]

/-- The bytes from `a` up can be read exactly when each of them can. -/
theorem Memory.readBytes_eq_some_iff (m : Memory) (a n : Nat) (bs : List Byte) :
    m.readBytes a n = some bs ↔ bs.length = n ∧ ∀ k < n, m.read (a + k) = bs[k]? := by
  induction n generalizing a bs with
  | zero => cases bs <;> simp [Memory.readBytes]
  | succ n ih =>
    rw [Memory.readBytes]
    cases bs with
    | nil =>
      constructor
      · intro h; split at h <;> simp_all
      · rintro ⟨h, _⟩; simp at h
    | cons b bs =>
      constructor
      · intro h
        split at h
        · next b' bs' hb hbs =>
          simp only [Option.some.injEq, List.cons.injEq] at h
          obtain ⟨rfl, rfl⟩ := h
          obtain ⟨hl, hr⟩ := (ih (a + 1) bs').1 hbs
          refine ⟨by simp [hl], fun k hk => ?_⟩
          cases k with
          | zero => simpa using hb
          | succ k => have := hr k (by omega); rw [show a + (k + 1) = a + 1 + k by omega]; simpa using this
        · simp at h
      · rintro ⟨hl, hr⟩
        have h0 := hr 0 (by omega)
        have hrest := (ih (a + 1) bs).2 ⟨by simpa using hl, fun k hk => by
          have := hr (k + 1) (by omega); rw [show a + (k + 1) = a + 1 + k by omega] at this; simpa using this⟩
        simp at h0
        simp [h0, hrest]

/-- Bytes written from `a` up are read back (R9). -/
theorem Memory.readBytes_writeBytes (m : Memory) (a : Nat) (bs : List Byte) :
    (m.writeBytes a bs).readBytes a bs.length = some bs := by
  rw [Memory.readBytes_eq_some_iff]
  refine ⟨rfl, fun k hk => ?_⟩
  simp [Memory.read_writeBytes, hk]

end Sys2Proof.Machine
end

