-- ==== Sys2Proof/Laws/State.lean ====
section
/-! SUPPORT. One lemma per field of the state per update, all true by definition. -/

namespace Sys2Proof.Machine

variable (s : State)

/-! ## writeX -/

@[simp] theorem writeX_cfg (i : RegNum) (w : BitVec s.cfg.xlen) : (s.writeX i w).cfg = s.cfg := rfl
@[simp] theorem writeX_x (i : RegNum) (w : BitVec s.cfg.xlen) :
    (s.writeX i w).x = (if i = 0 then s.x else s.x.set i.val w) := rfl
@[simp] theorem writeX_pc (i : RegNum) (w : BitVec s.cfg.xlen) : (s.writeX i w).pc = s.pc := rfl
@[simp] theorem writeX_v (i : RegNum) (w : BitVec s.cfg.xlen) : (s.writeX i w).v = s.v := rfl
@[simp] theorem writeX_vtype (i : RegNum) (w : BitVec s.cfg.xlen) : (s.writeX i w).vtype = s.vtype := rfl
@[simp] theorem writeX_vl (i : RegNum) (w : BitVec s.cfg.xlen) : (s.writeX i w).vl = s.vl := rfl
@[simp] theorem writeX_vstart (i : RegNum) (w : BitVec s.cfg.xlen) : (s.writeX i w).vstart = s.vstart := rfl
@[simp] theorem writeX_mem (i : RegNum) (w : BitVec s.cfg.xlen) : (s.writeX i w).mem = s.mem := rfl
@[simp] theorem writeX_priv (i : RegNum) (w : BitVec s.cfg.xlen) : (s.writeX i w).priv = s.priv := rfl
@[simp] theorem writeX_mtvec (i : RegNum) (w : BitVec s.cfg.xlen) : (s.writeX i w).mtvec = s.mtvec := rfl
@[simp] theorem writeX_mepc (i : RegNum) (w : BitVec s.cfg.xlen) : (s.writeX i w).mepc = s.mepc := rfl
@[simp] theorem writeX_mcause (i : RegNum) (w : BitVec s.cfg.xlen) : (s.writeX i w).mcause = s.mcause := rfl
@[simp] theorem writeX_mtval (i : RegNum) (w : BitVec s.cfg.xlen) : (s.writeX i w).mtval = s.mtval := rfl

/-! ## writeV -/

@[simp] theorem writeV_cfg (n : RegNum) (w : BitVec s.cfg.vlen) : (s.writeV n w).cfg = s.cfg := rfl
@[simp] theorem writeV_x (n : RegNum) (w : BitVec s.cfg.vlen) : (s.writeV n w).x = s.x := rfl
@[simp] theorem writeV_pc (n : RegNum) (w : BitVec s.cfg.vlen) : (s.writeV n w).pc = s.pc := rfl
@[simp] theorem writeV_v (n : RegNum) (w : BitVec s.cfg.vlen) : (s.writeV n w).v = s.v.set n.val w := rfl
@[simp] theorem writeV_vtype (n : RegNum) (w : BitVec s.cfg.vlen) : (s.writeV n w).vtype = s.vtype := rfl
@[simp] theorem writeV_vl (n : RegNum) (w : BitVec s.cfg.vlen) : (s.writeV n w).vl = s.vl := rfl
@[simp] theorem writeV_vstart (n : RegNum) (w : BitVec s.cfg.vlen) : (s.writeV n w).vstart = s.vstart := rfl
@[simp] theorem writeV_mem (n : RegNum) (w : BitVec s.cfg.vlen) : (s.writeV n w).mem = s.mem := rfl
@[simp] theorem writeV_priv (n : RegNum) (w : BitVec s.cfg.vlen) : (s.writeV n w).priv = s.priv := rfl
@[simp] theorem writeV_mtvec (n : RegNum) (w : BitVec s.cfg.vlen) : (s.writeV n w).mtvec = s.mtvec := rfl
@[simp] theorem writeV_mepc (n : RegNum) (w : BitVec s.cfg.vlen) : (s.writeV n w).mepc = s.mepc := rfl
@[simp] theorem writeV_mcause (n : RegNum) (w : BitVec s.cfg.vlen) : (s.writeV n w).mcause = s.mcause := rfl
@[simp] theorem writeV_mtval (n : RegNum) (w : BitVec s.cfg.vlen) : (s.writeV n w).mtval = s.mtval := rfl

/-! ## writeMask -/

@[simp] theorem writeMask_cfg (vd : RegNum) (f : Nat → Option Bool) : (s.writeMask vd f).cfg = s.cfg := rfl
@[simp] theorem writeMask_x (vd : RegNum) (f : Nat → Option Bool) : (s.writeMask vd f).x = s.x := rfl
@[simp] theorem writeMask_pc (vd : RegNum) (f : Nat → Option Bool) : (s.writeMask vd f).pc = s.pc := rfl
@[simp] theorem writeMask_v (vd : RegNum) (f : Nat → Option Bool) :
    (s.writeMask vd f).v = s.v.set vd.val (s.maskResult (s.readV vd) f) := rfl
@[simp] theorem writeMask_vtype (vd : RegNum) (f : Nat → Option Bool) : (s.writeMask vd f).vtype = s.vtype := rfl
@[simp] theorem writeMask_vl (vd : RegNum) (f : Nat → Option Bool) : (s.writeMask vd f).vl = s.vl := rfl
@[simp] theorem writeMask_vstart (vd : RegNum) (f : Nat → Option Bool) :
    (s.writeMask vd f).vstart = s.vstart := rfl
@[simp] theorem writeMask_mem (vd : RegNum) (f : Nat → Option Bool) : (s.writeMask vd f).mem = s.mem := rfl
@[simp] theorem writeMask_priv (vd : RegNum) (f : Nat → Option Bool) : (s.writeMask vd f).priv = s.priv := rfl
@[simp] theorem writeMask_mtvec (vd : RegNum) (f : Nat → Option Bool) : (s.writeMask vd f).mtvec = s.mtvec := rfl
@[simp] theorem writeMask_mepc (vd : RegNum) (f : Nat → Option Bool) : (s.writeMask vd f).mepc = s.mepc := rfl
@[simp] theorem writeMask_mcause (vd : RegNum) (f : Nat → Option Bool) :
    (s.writeMask vd f).mcause = s.mcause := rfl
@[simp] theorem writeMask_mtval (vd : RegNum) (f : Nat → Option Bool) : (s.writeMask vd f).mtval = s.mtval := rfl

/-! ## writeGroup -/

@[simp] theorem writeGroup_cfg (vd : RegNum) (g : Nat → Option Nat) : (s.writeGroup vd g).cfg = s.cfg := rfl
@[simp] theorem writeGroup_x (vd : RegNum) (g : Nat → Option Nat) : (s.writeGroup vd g).x = s.x := rfl
@[simp] theorem writeGroup_pc (vd : RegNum) (g : Nat → Option Nat) : (s.writeGroup vd g).pc = s.pc := rfl
@[simp] theorem writeGroup_v (vd : RegNum) (g : Nat → Option Nat) :
    (s.writeGroup vd g).v = updateRegs (s.groupResult g) vd.val s.lmul s.v := rfl
@[simp] theorem writeGroup_vtype (vd : RegNum) (g : Nat → Option Nat) : (s.writeGroup vd g).vtype = s.vtype := rfl
@[simp] theorem writeGroup_vl (vd : RegNum) (g : Nat → Option Nat) : (s.writeGroup vd g).vl = s.vl := rfl
@[simp] theorem writeGroup_vstart (vd : RegNum) (g : Nat → Option Nat) :
    (s.writeGroup vd g).vstart = s.vstart := rfl
@[simp] theorem writeGroup_mem (vd : RegNum) (g : Nat → Option Nat) : (s.writeGroup vd g).mem = s.mem := rfl
@[simp] theorem writeGroup_priv (vd : RegNum) (g : Nat → Option Nat) : (s.writeGroup vd g).priv = s.priv := rfl
@[simp] theorem writeGroup_mtvec (vd : RegNum) (g : Nat → Option Nat) : (s.writeGroup vd g).mtvec = s.mtvec := rfl
@[simp] theorem writeGroup_mepc (vd : RegNum) (g : Nat → Option Nat) : (s.writeGroup vd g).mepc = s.mepc := rfl
@[simp] theorem writeGroup_mcause (vd : RegNum) (g : Nat → Option Nat) :
    (s.writeGroup vd g).mcause = s.mcause := rfl
@[simp] theorem writeGroup_mtval (vd : RegNum) (g : Nat → Option Nat) : (s.writeGroup vd g).mtval = s.mtval := rfl

/-! ## advancePc -/

@[simp] theorem advancePc_cfg : (s.advancePc).cfg = s.cfg := rfl
@[simp] theorem advancePc_x : (s.advancePc).x = s.x := rfl
@[simp] theorem advancePc_pc : (s.advancePc).pc = s.pc + 4#_ := rfl
@[simp] theorem advancePc_v : (s.advancePc).v = s.v := rfl
@[simp] theorem advancePc_vtype : (s.advancePc).vtype = s.vtype := rfl
@[simp] theorem advancePc_vl : (s.advancePc).vl = s.vl := rfl
@[simp] theorem advancePc_vstart : (s.advancePc).vstart = s.vstart := rfl
@[simp] theorem advancePc_mem : (s.advancePc).mem = s.mem := rfl
@[simp] theorem advancePc_priv : (s.advancePc).priv = s.priv := rfl
@[simp] theorem advancePc_mtvec : (s.advancePc).mtvec = s.mtvec := rfl
@[simp] theorem advancePc_mepc : (s.advancePc).mepc = s.mepc := rfl
@[simp] theorem advancePc_mcause : (s.advancePc).mcause = s.mcause := rfl
@[simp] theorem advancePc_mtval : (s.advancePc).mtval = s.mtval := rfl

/-! ## clearVstart -/

@[simp] theorem clearVstart_cfg : (s.clearVstart).cfg = s.cfg := rfl
@[simp] theorem clearVstart_x : (s.clearVstart).x = s.x := rfl
@[simp] theorem clearVstart_pc : (s.clearVstart).pc = s.pc := rfl
@[simp] theorem clearVstart_v : (s.clearVstart).v = s.v := rfl
@[simp] theorem clearVstart_vtype : (s.clearVstart).vtype = s.vtype := rfl
@[simp] theorem clearVstart_vl : (s.clearVstart).vl = s.vl := rfl
@[simp] theorem clearVstart_vstart : (s.clearVstart).vstart = 0#_ := rfl
@[simp] theorem clearVstart_mem : (s.clearVstart).mem = s.mem := rfl
@[simp] theorem clearVstart_priv : (s.clearVstart).priv = s.priv := rfl
@[simp] theorem clearVstart_mtvec : (s.clearVstart).mtvec = s.mtvec := rfl
@[simp] theorem clearVstart_mepc : (s.clearVstart).mepc = s.mepc := rfl
@[simp] theorem clearVstart_mcause : (s.clearVstart).mcause = s.mcause := rfl
@[simp] theorem clearVstart_mtval : (s.clearVstart).mtval = s.mtval := rfl

/-! ## enterTrap -/

@[simp] theorem enterTrap_cfg (inst : Word) (b : Bool) : (s.enterTrap inst b).cfg = s.cfg := rfl
@[simp] theorem enterTrap_x (inst : Word) (b : Bool) : (s.enterTrap inst b).x = s.x := rfl
@[simp] theorem enterTrap_pc (inst : Word) (b : Bool) : (s.enterTrap inst b).pc = s.trapTarget := rfl
@[simp] theorem enterTrap_v (inst : Word) (b : Bool) : (s.enterTrap inst b).v = s.v := rfl
@[simp] theorem enterTrap_vtype (inst : Word) (b : Bool) : (s.enterTrap inst b).vtype = s.vtype := rfl
@[simp] theorem enterTrap_vl (inst : Word) (b : Bool) : (s.enterTrap inst b).vl = s.vl := rfl
@[simp] theorem enterTrap_vstart (inst : Word) (b : Bool) : (s.enterTrap inst b).vstart = s.vstart := rfl
@[simp] theorem enterTrap_mem (inst : Word) (b : Bool) : (s.enterTrap inst b).mem = s.mem := rfl
@[simp] theorem enterTrap_priv (inst : Word) (b : Bool) : (s.enterTrap inst b).priv = .machine := rfl
@[simp] theorem enterTrap_mtvec (inst : Word) (b : Bool) : (s.enterTrap inst b).mtvec = s.mtvec := rfl
@[simp] theorem enterTrap_mepc (inst : Word) (b : Bool) : (s.enterTrap inst b).mepc = s.pc := rfl
@[simp] theorem enterTrap_mcause (inst : Word) (b : Bool) :
    (s.enterTrap inst b).mcause = BitVec.ofNat _ illegalInstructionCause := rfl
@[simp] theorem enterTrap_mtval (inst : Word) (b : Bool) :
    (s.enterTrap inst b).mtval = (if b then inst.setWidth _ else 0#_) := rfl

/-! ## withFetchWord -/

@[simp] theorem withFetchWord_cfg (nbits w : Nat) : (s.withFetchWord nbits w).cfg = s.cfg := rfl
@[simp] theorem withFetchWord_x (nbits w : Nat) : (s.withFetchWord nbits w).x = s.x := rfl
@[simp] theorem withFetchWord_pc (nbits w : Nat) : (s.withFetchWord nbits w).pc = s.pc := rfl
@[simp] theorem withFetchWord_v (nbits w : Nat) : (s.withFetchWord nbits w).v = s.v := rfl
@[simp] theorem withFetchWord_vtype (nbits w : Nat) : (s.withFetchWord nbits w).vtype = s.vtype := rfl
@[simp] theorem withFetchWord_vl (nbits w : Nat) : (s.withFetchWord nbits w).vl = s.vl := rfl
@[simp] theorem withFetchWord_vstart (nbits w : Nat) : (s.withFetchWord nbits w).vstart = s.vstart := rfl
@[simp] theorem withFetchWord_mem (nbits w : Nat) :
    (s.withFetchWord nbits w).mem = s.mem.writeBytes s.pc.toNat (tableBytes nbits w) := rfl
@[simp] theorem withFetchWord_priv (nbits w : Nat) : (s.withFetchWord nbits w).priv = s.priv := rfl
@[simp] theorem withFetchWord_mtvec (nbits w : Nat) : (s.withFetchWord nbits w).mtvec = s.mtvec := rfl
@[simp] theorem withFetchWord_mepc (nbits w : Nat) : (s.withFetchWord nbits w).mepc = s.mepc := rfl
@[simp] theorem withFetchWord_mcause (nbits w : Nat) : (s.withFetchWord nbits w).mcause = s.mcause := rfl
@[simp] theorem withFetchWord_mtval (nbits w : Nat) : (s.withFetchWord nbits w).mtval = s.mtval := rfl

/-! ## Quantities that read only the configuration and `vtype` -/

@[simp] theorem writeX_sew (i : RegNum) (w : BitVec s.cfg.xlen) : (s.writeX i w).sew = s.sew := rfl
@[simp] theorem writeX_lmul (i : RegNum) (w : BitVec s.cfg.xlen) : (s.writeX i w).lmul = s.lmul := rfl
@[simp] theorem writeX_mlen (i : RegNum) (w : BitVec s.cfg.xlen) : (s.writeX i w).mlen = s.mlen := rfl
@[simp] theorem writeX_vlmax (i : RegNum) (w : BitVec s.cfg.xlen) : (s.writeX i w).vlmax = s.vlmax := rfl
@[simp] theorem writeX_epr (i : RegNum) (w : BitVec s.cfg.xlen) : (s.writeX i w).epr = s.epr := rfl
@[simp] theorem writeV_sew (n : RegNum) (w : BitVec s.cfg.vlen) : (s.writeV n w).sew = s.sew := rfl
@[simp] theorem writeV_lmul (n : RegNum) (w : BitVec s.cfg.vlen) : (s.writeV n w).lmul = s.lmul := rfl
@[simp] theorem writeV_mlen (n : RegNum) (w : BitVec s.cfg.vlen) : (s.writeV n w).mlen = s.mlen := rfl
@[simp] theorem writeV_vlmax (n : RegNum) (w : BitVec s.cfg.vlen) : (s.writeV n w).vlmax = s.vlmax := rfl
@[simp] theorem writeV_epr (n : RegNum) (w : BitVec s.cfg.vlen) : (s.writeV n w).epr = s.epr := rfl
@[simp] theorem writeMask_sew (vd : RegNum) (f : Nat → Option Bool) : (s.writeMask vd f).sew = s.sew := rfl
@[simp] theorem writeMask_lmul (vd : RegNum) (f : Nat → Option Bool) : (s.writeMask vd f).lmul = s.lmul := rfl
@[simp] theorem writeMask_mlen (vd : RegNum) (f : Nat → Option Bool) : (s.writeMask vd f).mlen = s.mlen := rfl
@[simp] theorem writeMask_vlmax (vd : RegNum) (f : Nat → Option Bool) : (s.writeMask vd f).vlmax = s.vlmax := rfl
@[simp] theorem writeMask_epr (vd : RegNum) (f : Nat → Option Bool) : (s.writeMask vd f).epr = s.epr := rfl
@[simp] theorem writeGroup_sew (vd : RegNum) (g : Nat → Option Nat) : (s.writeGroup vd g).sew = s.sew := rfl
@[simp] theorem writeGroup_lmul (vd : RegNum) (g : Nat → Option Nat) : (s.writeGroup vd g).lmul = s.lmul := rfl
@[simp] theorem writeGroup_mlen (vd : RegNum) (g : Nat → Option Nat) : (s.writeGroup vd g).mlen = s.mlen := rfl
@[simp] theorem writeGroup_vlmax (vd : RegNum) (g : Nat → Option Nat) : (s.writeGroup vd g).vlmax = s.vlmax := rfl
@[simp] theorem writeGroup_epr (vd : RegNum) (g : Nat → Option Nat) : (s.writeGroup vd g).epr = s.epr := rfl
@[simp] theorem advancePc_sew : (s.advancePc).sew = s.sew := rfl
@[simp] theorem advancePc_lmul : (s.advancePc).lmul = s.lmul := rfl
@[simp] theorem advancePc_mlen : (s.advancePc).mlen = s.mlen := rfl
@[simp] theorem advancePc_vlmax : (s.advancePc).vlmax = s.vlmax := rfl
@[simp] theorem advancePc_epr : (s.advancePc).epr = s.epr := rfl
@[simp] theorem clearVstart_sew : (s.clearVstart).sew = s.sew := rfl
@[simp] theorem clearVstart_lmul : (s.clearVstart).lmul = s.lmul := rfl
@[simp] theorem clearVstart_mlen : (s.clearVstart).mlen = s.mlen := rfl
@[simp] theorem clearVstart_vlmax : (s.clearVstart).vlmax = s.vlmax := rfl
@[simp] theorem clearVstart_epr : (s.clearVstart).epr = s.epr := rfl
@[simp] theorem enterTrap_sew (inst : Word) (b : Bool) : (s.enterTrap inst b).sew = s.sew := rfl
@[simp] theorem enterTrap_lmul (inst : Word) (b : Bool) : (s.enterTrap inst b).lmul = s.lmul := rfl
@[simp] theorem enterTrap_mlen (inst : Word) (b : Bool) : (s.enterTrap inst b).mlen = s.mlen := rfl
@[simp] theorem enterTrap_vlmax (inst : Word) (b : Bool) : (s.enterTrap inst b).vlmax = s.vlmax := rfl
@[simp] theorem enterTrap_epr (inst : Word) (b : Bool) : (s.enterTrap inst b).epr = s.epr := rfl
@[simp] theorem withFetchWord_sew (nbits w : Nat) : (s.withFetchWord nbits w).sew = s.sew := rfl
@[simp] theorem withFetchWord_lmul (nbits w : Nat) : (s.withFetchWord nbits w).lmul = s.lmul := rfl
@[simp] theorem withFetchWord_mlen (nbits w : Nat) : (s.withFetchWord nbits w).mlen = s.mlen := rfl
@[simp] theorem withFetchWord_vlmax (nbits w : Nat) : (s.withFetchWord nbits w).vlmax = s.vlmax := rfl
@[simp] theorem withFetchWord_epr (nbits w : Nat) : (s.withFetchWord nbits w).epr = s.epr := rfl

/-! ## underTerminal -/

@[simp] theorem underTerminal_cfg : s.underTerminal.cfg = { s.cfg with trapModel := .terminalFault } := rfl
@[simp] theorem underTerminal_x : s.underTerminal.x = s.x := rfl
@[simp] theorem underTerminal_pc : s.underTerminal.pc = s.pc := rfl
@[simp] theorem underTerminal_v : s.underTerminal.v = s.v := rfl
@[simp] theorem underTerminal_vtype : s.underTerminal.vtype = s.vtype := rfl
@[simp] theorem underTerminal_vl : s.underTerminal.vl = s.vl := rfl
@[simp] theorem underTerminal_vstart : s.underTerminal.vstart = s.vstart := rfl
@[simp] theorem underTerminal_mem : s.underTerminal.mem = s.mem := rfl
@[simp] theorem underTerminal_priv : s.underTerminal.priv = s.priv := rfl
@[simp] theorem underTerminal_mtvec : s.underTerminal.mtvec = s.mtvec := rfl
@[simp] theorem underTerminal_mepc : s.underTerminal.mepc = s.mepc := rfl
@[simp] theorem underTerminal_mcause : s.underTerminal.mcause = s.mcause := rfl
@[simp] theorem underTerminal_mtval : s.underTerminal.mtval = s.mtval := rfl
@[simp] theorem underTerminal_sew : s.underTerminal.sew = s.sew := rfl
@[simp] theorem underTerminal_lmul : s.underTerminal.lmul = s.lmul := rfl
@[simp] theorem underTerminal_mlen : s.underTerminal.mlen = s.mlen := rfl
@[simp] theorem underTerminal_vlmax : s.underTerminal.vlmax = s.vlmax := rfl
@[simp] theorem underTerminal_epr : s.underTerminal.epr = s.epr := rfl
@[simp] theorem underTerminal_fetch : s.underTerminal.fetch = s.fetch := rfl

/-! ## Reading back a register -/

/-- `x[j]` after a write to `x[i]`: the new value, unless the register written is `x0` (R20). -/
theorem readX_writeX (i j : RegNum) (w : BitVec s.cfg.xlen) :
    (s.writeX i w).readX j = if j = i ∧ i ≠ 0 then w else s.readX j := by
  by_cases hj : j = 0
  · subst hj; by_cases hi : (0 : RegNum) = i <;> simp_all [State.readX]
  · by_cases hi : i = 0
    · subst hi; simp [State.readX, hj]
    · by_cases h : j = i
      · subst h; simp [State.readX, hj]
      · have : i.val ≠ j.val := fun e => h (Fin.ext e.symm)
        simp [State.readX, hj, hi, h, this]

/-- `v[m]` after a write to `v[n]` (R22). -/
theorem readV_writeV (n m : RegNum) (w : BitVec s.cfg.vlen) :
    (s.writeV n w).readV m = if m = n then w else s.readV m := by
  by_cases h : m = n
  · subst h; simp [State.readV]
  · have : n.val ≠ m.val := fun e => h (Fin.ext e.symm)
    simp [State.readV, h, this]

end Sys2Proof.Machine
end

