-- ==== Sys2Proof/Laws/Operands.lean ====
section
/-! SUPPORT. The quantities of a setting, and what writing a mask register or a register group leaves in each
element. -/

namespace Sys2Proof.Machine

variable {s : State}

/-! ## Quantities (R6) -/

/-- XLEN has one of two values (R5). -/
theorem xlen_cases (c : Config) : c.xlen = 32 ∨ c.xlen = 64 := by
  cases h : c.base <;> simp [Config.xlen, h]

/-- When a tail element is left alone (D32). -/
theorem State.writesTail_eq_false_iff (s : State) :
    s.writesTail = false ↔ s.vl.toNat = 0 ∧ s.cfg.vl0WritesTail = false := by
  simp [State.writesTail, and_comm]

/-- With `vstart` = 0 the body is what lies below `vl` (R11). -/
theorem State.activeSet_of_vstart_zero (h0 : s.vstart.toNat = 0) (vm : Bool) (vs2 : RegNum) {i : Nat}
    (hi : i < s.vl.toNat) : s.activeSet vm vs2 i = (s.maskOn vm i && mbit s.mlen (s.readV vs2) i) := by
  simp [State.activeSet, State.active, State.body, h0, hi]

theorem State.sew_pos (s : State) : 0 < s.sew := by simp [State.sew]

theorem State.lmul_pos (s : State) : 0 < s.lmul := by simp [State.lmul]

theorem State.lmul_le (s : State) : s.lmul ≤ 8 := by
  have h : s.vtype.vlmul.val ≤ 3 := by omega
  calc 2 ^ s.vtype.vlmul.val ≤ 2 ^ 3 := Nat.pow_le_pow_right (by omega) h

/-- LMUL divides SEW, so MLEN = SEW / LMUL is exact (R6). -/
theorem State.mlen_eq_pow (s : State) : s.mlen = 2 ^ (3 + s.vtype.vsew - s.vtype.vlmul.val) := by
  have h : s.vtype.vlmul.val ≤ 3 + s.vtype.vsew := by omega
  have h8 : 8 * 2 ^ s.vtype.vsew = 2 ^ (3 + s.vtype.vsew) := by rw [Nat.pow_add]
  rw [State.mlen, State.sew, State.lmul, h8, Nat.pow_div h (by omega)]

theorem State.mlen_pos (s : State) : 0 < s.mlen := by simp [State.mlen_eq_pow]

theorem State.mlen_mul_lmul (s : State) : s.mlen * s.lmul = s.sew := by
  have h : s.vtype.vlmul.val ≤ 3 + s.vtype.vsew := by omega
  have h8 : 8 * 2 ^ s.vtype.vsew = 2 ^ (3 + s.vtype.vsew) := by rw [Nat.pow_add]
  rw [State.mlen_eq_pow, State.sew, State.lmul, ← Nat.pow_add, h8, Nat.sub_add_cancel h]

/-- The mask elements do not run past the register. -/
theorem State.vlmax_mul_mlen_le (s : State) : s.vlmax * s.mlen ≤ s.cfg.vlen := Nat.div_mul_le_self _ _

/-- A legal SEW divides VLEN. -/
theorem State.Inv.epr_mul_sew (h : s.Inv) (hv : s.vtype.vill = false) : s.epr * s.sew = s.cfg.vlen := by
  have hs := h.sewLe hv
  have hc := h.config
  simp only [Config.legal, Bool.and_eq_true, decide_eq_true_eq] at hc
  have h8 : s.sew = 2 ^ (3 + s.vtype.vsew) := by rw [State.sew, Nat.pow_add]
  have hle : 3 + s.vtype.vsew ≤ s.cfg.vlenLog := by
    rw [h8, Config.elen, Nat.pow_le_pow_iff_right (by omega)] at hs
    omega
  rw [State.epr, Nat.div_mul_cancel]
  rw [h8, Config.vlen]
  exact Nat.pow_dvd_pow 2 hle

/-- Legal element widths leave at least one element in a register (R25). -/
theorem State.Inv.epr_pos (h : s.Inv) (hv : s.vtype.vill = false) : 0 < s.epr := by
  have he := h.epr_mul_sew hv
  have hp : 0 < s.cfg.vlen := by simp [Config.vlen]
  rcases Nat.eq_zero_or_pos s.epr with h0 | h0
  · rw [h0] at he; omega
  · exact h0

/-- The mask elements of one register are as many as the data elements of a group (R6). -/
theorem State.Inv.vlmax_eq (h : s.Inv) (hv : s.vtype.vill = false) : s.vlmax = s.lmul * s.epr := by
  have he := h.epr_mul_sew hv
  rw [State.vlmax, ← he, ← State.mlen_mul_lmul, Nat.mul_comm s.mlen, ← Nat.mul_assoc,
    Nat.mul_div_cancel _ s.mlen_pos, Nat.mul_comm]

theorem State.Inv.vlmax_mul_mlen (h : s.Inv) (hv : s.vtype.vill = false) : s.vlmax * s.mlen = s.cfg.vlen := by
  rw [h.vlmax_eq hv, ← h.epr_mul_sew hv, ← State.mlen_mul_lmul, Nat.mul_comm s.lmul, Nat.mul_assoc,
    Nat.mul_comm s.lmul]

/-! ## Mask registers -/

theorem mul_add_lt {i n m j : Nat} (hi : i < n) (hj : j < m) : i * m + j < n * m :=
  calc i * m + j < i * m + m := by omega
    _ = (i + 1) * m := by rw [Nat.add_mul, Nat.one_mul]
    _ ≤ n * m := Nat.mul_le_mul_right m hi

/-- One bit of a written mask register. -/
theorem State.getLsbD_maskResult (s : State) (old : BitVec s.cfg.vlen) (f : Nat → Option Bool) {i j : Nat}
    (hi : i < s.vlmax) (hj : j < s.mlen) :
    (s.maskResult old f).getLsbD (i * s.mlen + j) =
      match f i with
      | none => old.getLsbD (i * s.mlen + j)
      | some b => b && j == 0 := by
  have hlt : i * s.mlen + j < s.cfg.vlen := Nat.lt_of_lt_of_le (mul_add_lt hi hj) s.vlmax_mul_mlen_le
  have hd : (i * s.mlen + j) / s.mlen = i := by
    rw [Nat.mul_comm, Nat.mul_add_div s.mlen_pos, Nat.div_eq_of_lt hj, Nat.add_zero]
  have hm : (i * s.mlen + j) % s.mlen = j := by
    rw [Nat.mul_comm, Nat.mul_add_mod, Nat.mod_eq_of_lt hj]
  rw [State.maskResult, getLsbD_ofBits, hd, hm, if_pos hi, decide_eq_true hlt]
  cases f i <;> exact Bool.true_and _

/-- Mask element `i` of a written mask register: as before where nothing is written, else the bit zero-extended
(R10). -/
theorem State.melem_maskResult (s : State) (old : BitVec s.cfg.vlen) (f : Nat → Option Bool) {i : Nat}
    (hi : i < s.vlmax) :
    melem s.mlen (s.maskResult old f) i =
      match f i with
      | none => melem s.mlen old i
      | some b => (BitVec.ofBool b).setWidth s.mlen := by
  apply BitVec.eq_of_getLsbD_eq
  intro j hj
  rw [melem, BitVec.getLsbD_extractLsb', s.getLsbD_maskResult old f hi hj]
  cases f i with
  | none => simp [melem, hj]
  | some b => cases j <;> simp [hj]

/-- The bit that instructions read of mask element `i` of a written mask register. -/
theorem State.mbit_maskResult (s : State) (old : BitVec s.cfg.vlen) (f : Nat → Option Bool) {i : Nat}
    (hi : i < s.vlmax) :
    mbit s.mlen (s.maskResult old f) i =
      match f i with
      | none => mbit s.mlen old i
      | some b => b := by
  have := s.getLsbD_maskResult old f hi s.mlen_pos
  simpa [mbit] using this

/-- Two registers with the same mask elements are equal, when the elements fill the register (R23). -/
theorem State.Inv.eq_of_melem_eq (h : s.Inv) (hv : s.vtype.vill = false) {a b : BitVec s.cfg.vlen}
    (he : ∀ i < s.vlmax, melem s.mlen a i = melem s.mlen b i) : a = b := by
  apply BitVec.eq_of_getLsbD_eq
  intro k hk
  have hi : k / s.mlen < s.vlmax := by
    rw [Nat.div_lt_iff_lt_mul s.mlen_pos, h.vlmax_mul_mlen hv]; exact hk
  have hj : k % s.mlen < s.mlen := Nat.mod_lt _ s.mlen_pos
  have hbit := congrArg (fun e => e.getLsbD (k % s.mlen)) (he _ hi)
  simpa [melem, hj, Nat.mul_comm, Nat.div_add_mod] using hbit

/-! ## Register groups -/

/-- One bit of register `r` of a written group. -/
theorem State.Inv.getLsbD_groupResult (h : s.Inv) (hv : s.vtype.vill = false) (g : Nat → Option Nat)
    (old : BitVec s.cfg.vlen) {i j : Nat} (hi : i < s.vlmax) (hj : j < s.sew) :
    (s.groupResult g (i / s.epr) old).getLsbD (i % s.epr * s.sew + j) =
      match g i with
      | none => old.getLsbD (i % s.epr * s.sew + j)
      | some e => e.testBit j := by
  have hep := h.epr_pos hv
  have hlt : i % s.epr * s.sew + j < s.cfg.vlen := by
    rw [← h.epr_mul_sew hv]; exact mul_add_lt (Nat.mod_lt _ hep) hj
  have hd : (i % s.epr * s.sew + j) / s.sew = i % s.epr := by
    rw [Nat.mul_comm, Nat.mul_add_div s.sew_pos, Nat.div_eq_of_lt hj, Nat.add_zero]
  have hm : (i % s.epr * s.sew + j) % s.sew = j := by
    rw [Nat.mul_comm, Nat.mul_add_mod, Nat.mod_eq_of_lt hj]
  have hr : i / s.epr * s.epr + i % s.epr = i := Nat.div_add_mod' i s.epr
  rw [State.groupResult, getLsbD_ofBits, hd, hm, hr, if_pos hi, decide_eq_true hlt]
  cases g i <;> exact Bool.true_and _

/-- A legal group base leaves room for the group (R25). -/
theorem State.group_lt (s : State) {vd : RegNum} (ha : vd.val % s.lmul = 0) {r : Nat} (hr : r < s.lmul) :
    vd.val + r < 32 := by
  have hl : s.vtype.vlmul.val < 4 := s.vtype.vlmul.isLt
  have hvd := vd.isLt
  rw [State.lmul] at ha hr
  generalize s.vtype.vlmul.val = l at *
  interval_cases l <;> omega

/-- The vector registers after writing a group: what `writeGroup` puts in the state. -/
theorem State.writeGroup_getElem (s : State) (vd : RegNum) (g : Nat → Option Nat) (n : Nat) (hn : n < 32) :
    (updateRegs (s.groupResult g) vd.val s.lmul s.v)[n] =
      if vd.val ≤ n ∧ n < vd.val + s.lmul then s.groupResult g (n - vd.val) s.v[n] else s.v[n] :=
  updateRegs_getElem _ _ _ _ n hn

/-- A register outside the group keeps its value. -/
theorem State.writeGroup_getElem_outside (s : State) (vd : RegNum) (g : Nat → Option Nat) (n : RegNum)
    (hn : ¬ (vd.val ≤ n.val ∧ n.val < vd.val + s.lmul)) :
    (updateRegs (s.groupResult g) vd.val s.lmul s.v)[n.val] = s.v[n.val] := by
  rw [s.writeGroup_getElem vd g n.val n.isLt, if_neg hn]

/-- Element `i` of a written register group: as before where nothing is written, else the value cut to SEW bits (R25,
R110). -/
theorem State.Inv.elem_writeGroup (h : s.Inv) (hv : s.vtype.vill = false) {vd : RegNum}
    (ha : vd.val % s.lmul = 0) (g : Nat → Option Nat) {i : Nat} (hi : i < s.vlmax) :
    elem s.sew s.epr (updateRegs (s.groupResult g) vd.val s.lmul s.v) vd i =
      match g i with
      | none => elem s.sew s.epr s.v vd i
      | some e => BitVec.ofNat s.sew e := by
  have hr : i / s.epr < s.lmul := by
    rw [Nat.div_lt_iff_lt_mul (h.epr_pos hv), ← h.vlmax_eq hv]; exact hi
  have hk := s.group_lt ha hr
  have hnew := s.writeGroup_getElem vd g _ hk
  rw [if_pos ⟨Nat.le_add_right _ _, Nat.add_lt_add_left hr _⟩, Nat.add_sub_cancel_left] at hnew
  apply BitVec.eq_of_getLsbD_eq
  intro j hj
  have hbit := h.getLsbD_groupResult hv g s.v[vd.val + i / s.epr] hi hj
  rw [elem, Vector.getElem?_eq_getElem hk, Option.getD_some, hnew, BitVec.getLsbD_extractLsb', hbit]
  cases g i with
  | none => simp [elem, hj, hk]
  | some e => rw [BitVec.getLsbD_ofNat]

/-- Two register files that agree outside a group and on every element of the group are equal (R25). -/
theorem State.Inv.regs_eq_of_elem_eq (h : s.Inv) (hv : s.vtype.vill = false) {vd : RegNum}
    {a b : Vector (BitVec s.cfg.vlen) 32}
    (ho : ∀ n : RegNum, ¬ (vd.val ≤ n.val ∧ n.val < vd.val + s.lmul) → a[n.val] = b[n.val])
    (he : ∀ i < s.vlmax, elem s.sew s.epr a vd i = elem s.sew s.epr b vd i) : a = b := by
  apply Vector.ext
  intro n hn
  by_cases hin : vd.val ≤ n ∧ n < vd.val + s.lmul
  · obtain ⟨r, rfl⟩ := Nat.exists_eq_add_of_le hin.1
    have hp := h.epr_pos hv
    apply BitVec.eq_of_getLsbD_eq
    intro k hk
    have hj : k / s.sew < s.epr := by rw [Nat.div_lt_iff_lt_mul s.sew_pos, h.epr_mul_sew hv]; exact hk
    have hi : r * s.epr + k / s.sew < s.vlmax := by rw [h.vlmax_eq hv]; exact mul_add_lt (by omega) hj
    have h1 : (r * s.epr + k / s.sew) / s.epr = r := by
      rw [Nat.mul_comm, Nat.mul_add_div hp, Nat.div_eq_of_lt hj, Nat.add_zero]
    have h2 : (r * s.epr + k / s.sew) % s.epr = k / s.sew := by
      rw [Nat.mul_comm, Nat.mul_add_mod, Nat.mod_eq_of_lt hj]
    have hbit := congrArg (fun z => z.getLsbD (k % s.sew)) (he _ hi)
    simpa [elem, h1, h2, Nat.mod_lt _ s.sew_pos, Nat.div_add_mod', hn] using hbit
  · exact ho ⟨n, hn⟩ hin

end Sys2Proof.Machine
end

