-- ==== Sys2Proof/Laws/Exec.lean ====
section
/-! SUPPORT. What each shared operation can do, said once: taking the exception, the four families' procedures, the
step, and placing an instruction where the step fetches it. -/

namespace Sys2Proof.Machine

/-- Raising the exception: a fault that records the pc and the word, or entry into the trap (R133). -/
theorem raiseIllegal_cases (inst : Word) (s : State) :
    (s.cfg.trapModel = .terminalFault ∧ raiseIllegal inst s = .fault (.illegalInstruction s.pc.toNat inst)) ∨
    (∃ b, s.cfg.trapModel = .machineTrap b ∧ raiseIllegal inst s = .next (s.enterTrap inst b)) := by
  unfold raiseIllegal
  cases h : s.cfg.trapModel with
  | terminalFault => exact .inl ⟨rfl, rfl⟩
  | machineTrap b => exact .inr ⟨b, rfl, rfl⟩

/-- Under the terminal TrapModel the exception never gives a next state (D22). -/
theorem raiseIllegal_terminal {s : State} (h : s.cfg.trapModel = .terminalFault) (inst : Word) :
    raiseIllegal inst s = .fault (.illegalInstruction s.pc.toNat inst) := by
  simp [raiseIllegal, h]

/-- The exception gives a next state only by entering the trap. -/
theorem raiseIllegal_next {s t : State} {inst : Word} (h : raiseIllegal inst s = .next t) :
    ∃ b, s.cfg.trapModel = .machineTrap b ∧ t = s.enterTrap inst b := by
  rcases raiseIllegal_cases inst s with ⟨_, e⟩ | ⟨b, hb, e⟩ <;> rw [e] at h
  · cases h
  · cases h; exact ⟨b, hb, rfl⟩

/-- R70: an exception if `vill` is set, else one mask register written, `vstart` cleared, the pc advanced. -/
theorem maskLogical_cases (inst : Word) (op : Bool → Bool → Bool) (vd vs2 vs1 : RegNum) (s : State) :
    (s.vtype.vill = true ∧ maskLogical inst op vd vs2 vs1 s = raiseIllegal inst s) ∨
    (s.vtype.vill = false ∧ maskLogical inst op vd vs2 vs1 s =
      .next (s.writeMask vd (s.logicalBit op vs2 vs1)).clearVstart.advancePc) := by
  cases h : s.vtype.vill <;> simp [maskLogical, h]

/-- R90, R91: an exception if `vill` is set or `vstart` is not 0, else `x[rd]` written and the pc advanced. -/
theorem maskToScalar_cases (inst : Word) (rd : RegNum) (s : State) (result : BitVec s.cfg.xlen) :
    ((s.vtype.vill = true ∨ s.vstart.toNat ≠ 0) ∧ maskToScalar inst rd s result = raiseIllegal inst s) ∨
    (s.vtype.vill = false ∧ s.vstart.toNat = 0 ∧
      maskToScalar inst rd s result = .next (s.writeX rd result).advancePc) := by
  by_cases hs : s.vstart.toNat = 0 <;> cases h : s.vtype.vill <;>
    simp [maskToScalar, h, hs, State.vstartNonzero]

/-- R100: an exception if `vill` is set or `vstart` is not 0, else one mask register written and the pc advanced. -/
theorem setFirst_cases (inst : Word) (kind : FirstKind) (vd vs2 : RegNum) (vm : Bool) (s : State) :
    ((s.vtype.vill = true ∨ s.vstart.toNat ≠ 0) ∧ setFirst inst kind vd vs2 vm s = raiseIllegal inst s) ∨
    (s.vtype.vill = false ∧ s.vstart.toNat = 0 ∧
      setFirst inst kind vd vs2 vm s = .next (s.writeMask vd (s.setFirstBit kind vs2 vm)).advancePc) := by
  by_cases hs : s.vstart.toNat = 0 <;> cases h : s.vtype.vill <;>
    simp [setFirst, h, hs, State.vstartNonzero]

/-- When `viota.m` is legal (R111). -/
theorem iotaIllegal_eq_false_iff (s : State) (vd vs2 : RegNum) (vm : Bool) :
    s.iotaIllegal vd vs2 vm = false ↔
      s.vtype.vill = false ∧ vd.val % s.lmul = 0 ∧ s.vstart.toNat = 0 ∧
      ¬ (vd.val ≤ vs2.val ∧ vs2.val < vd.val + s.lmul) ∧ (vm = true ∨ vd ≠ 0) := by
  have hl := s.lmul_pos
  have h0 : s.groupHas vd 0 = false ↔ vd ≠ 0 := by
    have : vd = 0 ↔ vd.val = 0 := Fin.ext_iff
    simp only [State.groupHas, Bool.and_eq_false_iff, decide_eq_false_iff_not, ne_eq, this, Fin.val_zero]
    omega
  have h2 : s.groupHas vd vs2 = false ↔ ¬ (vd.val ≤ vs2.val ∧ vs2.val < vd.val + s.lmul) := by
    simp only [State.groupHas, Bool.and_eq_false_iff, decide_eq_false_iff_not]
    omega
  simp only [State.iotaIllegal, Bool.or_eq_false_iff, Bool.and_eq_false_iff, h0, h2, Bool.not_eq_false',
    State.groupMisaligned, State.vstartNonzero, bne_eq_false_iff_eq]
  tauto

/-- R111: an exception on the causes of R131, else the group written and the pc advanced. -/
theorem execViotaM_cases (vd vs2 : RegNum) (vm : Bool) (s : State) :
    (s.iotaIllegal vd vs2 vm = true ∧ execViotaM vd vs2 vm s = raiseIllegal (encode (.viotaM vd vs2 vm)) s) ∨
    (s.iotaIllegal vd vs2 vm = false ∧
      execViotaM vd vs2 vm s = .next (s.writeGroup vd (s.iotaElem vs2 vm)).advancePc) := by
  cases h : s.iotaIllegal vd vs2 vm <;> simp [execViotaM, h]

/-- R112: an exception if `vill` is set or the group base is misaligned, the refusal of D16 (c), else the group
written, `vstart` cleared and the pc advanced. -/
theorem execVidV_cases (vd : RegNum) (vm : Bool) (s : State) :
    ((s.vtype.vill = true ∨ vd.val % s.lmul ≠ 0) ∧ execVidV vd vm s = raiseIllegal (encode (.vidV vd vm)) s) ∨
    (s.vtype.vill = false ∧ vm = false ∧ vd = 0 ∧ 1 < s.lmul ∧
      execVidV vd vm s = .refused .vidMaskedGroupHoldsV0) ∨
    (s.vtype.vill = false ∧ vd.val % s.lmul = 0 ∧ ¬ (vm = false ∧ vd = 0 ∧ 1 < s.lmul) ∧
      execVidV vd vm s = .next (s.writeGroup vd (s.vidElem vm)).clearVstart.advancePc) := by
  cases hv : s.vtype.vill
  · by_cases ha : vd.val % s.lmul = 0
    · by_cases hc : vm = false ∧ vd = 0 ∧ 1 < s.lmul
      · right; left; obtain ⟨rfl, rfl, hl⟩ := hc
        simp [execVidV, hv, State.groupMisaligned, hl]
      · right; right
        refine ⟨rfl, ha, hc, ?_⟩
        have : (!vm && vd == 0 && decide (1 < s.lmul)) = false := by
          cases vm <;> simp_all
        simp [execVidV, hv, State.groupMisaligned, ha, this]
    · left; simp [execVidV, hv, State.groupMisaligned, ha]
  · left; simp [execVidV, hv]

/-- The states an instruction completes in: a mask register, a scalar register or a register group written, `vstart`
0 and the pc 4 further on. -/
inductive CompletesIn (s : State) : State → Prop
  | logical (vd : RegNum) (f : Nat → Option Bool) : CompletesIn s (s.writeMask vd f).clearVstart.advancePc
  | scalar (rd : RegNum) (w : BitVec s.cfg.xlen) (h : s.vstart.toNat = 0) :
      CompletesIn s (s.writeX rd w).advancePc
  | first (vd : RegNum) (f : Nat → Option Bool) (h : s.vstart.toNat = 0) :
      CompletesIn s (s.writeMask vd f).advancePc
  | iota (vd : RegNum) (g : Nat → Option Nat) (h : s.vstart.toNat = 0) :
      CompletesIn s (s.writeGroup vd g).advancePc
  | vid (vd : RegNum) (g : Nat → Option Nat) : CompletesIn s (s.writeGroup vd g).clearVstart.advancePc

/-- What one instruction can do: raise the exception, refuse (one form of `vid.v`), or complete. -/
abbrev ExecCases (i : Instr) (s : State) : Prop :=
  exec i s = raiseIllegal (encode i) s ∨
  (i = .vidV 0 false ∧ exec i s = .refused .vidMaskedGroupHoldsV0) ∨
  (s.vtype.vill = false ∧ ∃ t, exec i s = .next t ∧ CompletesIn s t)

/-- Every instruction raises the exception, refuses or completes. -/
theorem exec_cases (i : Instr) (s : State) : ExecCases i s := by
  have logical : ∀ (inst : Word) op vd vs2 vs1, exec i s = maskLogical inst op vd vs2 vs1 s → inst = encode i →
      ExecCases i s := fun inst op vd vs2 vs1 he hi => by
    rcases maskLogical_cases inst op vd vs2 vs1 s with ⟨_, e⟩ | ⟨hv, e⟩
    · exact .inl (he.trans (hi ▸ e))
    · exact .inr (.inr ⟨hv, _, he.trans e, .logical _ _⟩)
  have scalar : ∀ (inst : Word) rd w, exec i s = maskToScalar inst rd s w → inst = encode i → ExecCases i s :=
      fun inst rd w he hi => by
    rcases maskToScalar_cases inst rd s w with ⟨_, e⟩ | ⟨hv, h0, e⟩
    · exact .inl (he.trans (hi ▸ e))
    · exact .inr (.inr ⟨hv, _, he.trans e, .scalar _ _ h0⟩)
  have first : ∀ (inst : Word) kind vd vs2 vm, exec i s = setFirst inst kind vd vs2 vm s → inst = encode i →
      ExecCases i s := fun inst kind vd vs2 vm he hi => by
    rcases setFirst_cases inst kind vd vs2 vm s with ⟨_, e⟩ | ⟨hv, h0, e⟩
    · exact .inl (he.trans (hi ▸ e))
    · exact .inr (.inr ⟨hv, _, he.trans e, .first _ _ h0⟩)
  cases i with
  | vmandnotMm vd vs2 vs1 => exact logical _ _ _ _ _ rfl rfl
  | vmandMm vd vs2 vs1 => exact logical _ _ _ _ _ rfl rfl
  | vmorMm vd vs2 vs1 => exact logical _ _ _ _ _ rfl rfl
  | vmxorMm vd vs2 vs1 => exact logical _ _ _ _ _ rfl rfl
  | vmornotMm vd vs2 vs1 => exact logical _ _ _ _ _ rfl rfl
  | vmnandMm vd vs2 vs1 => exact logical _ _ _ _ _ rfl rfl
  | vmnorMm vd vs2 vs1 => exact logical _ _ _ _ _ rfl rfl
  | vmxnorMm vd vs2 vs1 => exact logical _ _ _ _ _ rfl rfl
  | vpopcM rd vs2 vm => exact scalar _ _ _ rfl rfl
  | vfirstM rd vs2 vm => exact scalar _ _ _ rfl rfl
  | vmsbfM vd vs2 vm => exact first _ _ _ _ _ rfl rfl
  | vmsofM vd vs2 vm => exact first _ _ _ _ _ rfl rfl
  | vmsifM vd vs2 vm => exact first _ _ _ _ _ rfl rfl
  | viotaM vd vs2 vm =>
    rcases execViotaM_cases vd vs2 vm s with ⟨_, e⟩ | ⟨h, e⟩
    · exact .inl e
    · obtain ⟨hv, _, h0, _⟩ := (iotaIllegal_eq_false_iff s vd vs2 vm).1 h
      exact .inr (.inr ⟨hv, _, e, .iota _ _ h0⟩)
  | vidV vd vm =>
    rcases execVidV_cases vd vm s with ⟨_, e⟩ | ⟨_, rfl, rfl, _, e⟩ | ⟨hv, _, _, e⟩
    · exact .inl e
    · exact .inr (.inl ⟨rfl, e⟩)
    · exact .inr (.inr ⟨hv, _, e, .vid _ _⟩)

/-- What one step can do. -/
theorem step_cases (s : State) :
    (∃ f, s.fetch = .error f ∧ step s = .fault f) ∨
    (∃ w i, s.fetch = .ok w ∧ decode w = .instr i ∧ step s = exec i s) ∨
    (∃ w k, s.fetch = .ok w ∧ decode w = .reserved k ∧ step s = raiseIllegal w s) ∨
    (∃ w, s.fetch = .ok w ∧ decode w = .notInSpec ∧ step s = .refused (.notInSpec w)) := by
  cases hf : s.fetch with
  | error f => exact .inl ⟨f, rfl, by simp [step, hf]⟩
  | ok w =>
    cases hd : decode w with
    | instr i => exact .inr (.inl ⟨w, i, rfl, hd, by simp [step, hf, hd]⟩)
    | reserved k => exact .inr (.inr (.inl ⟨w, k, rfl, hd, by simp [step, hf, hd]⟩))
    | notInSpec => exact .inr (.inr (.inr ⟨w, rfl, hd, by simp [step, hf, hd]⟩))

/-- The bytes at an aligned pc are what the fetch reads, the first the low byte (R42). -/
theorem fetch_of_readBytes {s : State} {b0 b1 b2 b3 : Byte} (ha : s.pc.toNat % 4 = 0)
    (hb : s.mem.readBytes s.pc.toNat 4 = some [b0, b1, b2, b3]) :
    s.fetch = .ok (wordOfBytes b0 b1 b2 b3) := by
  simp [State.fetch, ha, hb]

/-- The step fetches the instruction that `withFetchWord` places. -/
theorem fetch_withFetchWord {s : State} (ha : s.pc.toNat % 4 = 0) (nbits w : Nat) :
    (s.withFetchWord nbits w).fetch = .ok (BitVec.ofNat 32 (w % 2 ^ nbits)) := by
  rw [← wordOfBytes_byteOf]
  exact fetch_of_readBytes (s := s.withFetchWord nbits w) ha
    (Memory.readBytes_writeBytes s.mem s.pc.toNat (tableBytes nbits w))

/-! ## Runs (R155) -/

/-- What an instruction does tells what it does under the terminal TrapModel: the exception shows as a fault, and a
refusal or a completion is the same (R133). -/
theorem exec_underTerminal_cases (i : Instr) (s : State) :
    (exec i s = raiseIllegal (encode i) s ∧
      exec i s.underTerminal = .fault (.illegalInstruction s.pc.toNat (encode i))) ∨
    (∃ r, exec i s = .refused r ∧ exec i s.underTerminal = .refused r) ∨
    (∃ t, exec i s = .next t ∧ CompletesIn s t ∧ exec i s.underTerminal = .next t.underTerminal) := by
  have both : ∀ (c : Bool) (t : State), (c = false → CompletesIn s t) →
      (exec i s = if c then raiseIllegal (encode i) s else .next t) →
      (exec i s.underTerminal =
        if c then .fault (.illegalInstruction s.pc.toNat (encode i)) else .next t.underTerminal) →
      (exec i s = raiseIllegal (encode i) s ∧
        exec i s.underTerminal = .fault (.illegalInstruction s.pc.toNat (encode i))) ∨
      (∃ r, exec i s = .refused r ∧ exec i s.underTerminal = .refused r) ∨
      (∃ t, exec i s = .next t ∧ CompletesIn s t ∧ exec i s.underTerminal = .next t.underTerminal) := by
    intro c t hc h hu
    cases c
    · exact .inr (.inr ⟨t, h, hc rfl, hu⟩)
    · exact .inl ⟨h, hu⟩
  have zero : (s.vtype.vill || s.vstartNonzero) = false → s.vstart.toNat = 0 := by simp [State.vstartNonzero]
  cases i with
  | vmandnotMm => exact both s.vtype.vill _ (fun _ => .logical _ _) rfl rfl
  | vmandMm => exact both s.vtype.vill _ (fun _ => .logical _ _) rfl rfl
  | vmorMm => exact both s.vtype.vill _ (fun _ => .logical _ _) rfl rfl
  | vmxorMm => exact both s.vtype.vill _ (fun _ => .logical _ _) rfl rfl
  | vmornotMm => exact both s.vtype.vill _ (fun _ => .logical _ _) rfl rfl
  | vmnandMm => exact both s.vtype.vill _ (fun _ => .logical _ _) rfl rfl
  | vmnorMm => exact both s.vtype.vill _ (fun _ => .logical _ _) rfl rfl
  | vmxnorMm => exact both s.vtype.vill _ (fun _ => .logical _ _) rfl rfl
  | vpopcM => exact both (s.vtype.vill || s.vstartNonzero) _ (fun h => .scalar _ _ (zero h)) rfl rfl
  | vfirstM => exact both (s.vtype.vill || s.vstartNonzero) _ (fun h => .scalar _ _ (zero h)) rfl rfl
  | vmsbfM => exact both (s.vtype.vill || s.vstartNonzero) _ (fun h => .first _ _ (zero h)) rfl rfl
  | vmsofM => exact both (s.vtype.vill || s.vstartNonzero) _ (fun h => .first _ _ (zero h)) rfl rfl
  | vmsifM => exact both (s.vtype.vill || s.vstartNonzero) _ (fun h => .first _ _ (zero h)) rfl rfl
  | viotaM vd vs2 vm =>
    exact both (s.iotaIllegal vd vs2 vm) _
      (fun h => .iota _ _ ((iotaIllegal_eq_false_iff s vd vs2 vm).1 h).2.2.1) rfl rfl
  | vidV vd vm =>
    have hu : execVidV vd vm s.underTerminal =
        if s.vtype.vill || s.groupMisaligned vd then .fault (.illegalInstruction s.pc.toNat (encode (.vidV vd vm)))
        else if !vm && vd == 0 && decide (1 < s.lmul) then .refused .vidMaskedGroupHoldsV0
        else .next (s.writeGroup vd (s.vidElem vm)).clearVstart.advancePc.underTerminal := rfl
    cases hr : s.vtype.vill || s.groupMisaligned vd
    · cases hz : !vm && vd == 0 && decide (1 < s.lmul)
      · exact .inr (.inr ⟨_, by simp only [exec, execVidV, hr, hz]; rfl, .vid _ _, by simp only [exec, hu, hr, hz]; rfl⟩)
      · exact .inr (.inl ⟨_, by simp only [exec, execVidV, hr, hz]; rfl, by simp only [exec, hu, hr, hz]; rfl⟩)
    · exact .inl ⟨by simp only [exec, execVidV, hr]; rfl, by simp only [exec, hu, hr]; rfl⟩

/-- At the end address the run is over. -/
theorem runTo_atEnd {s : State} {endPc : Nat} (h : s.AtEnd endPc) (fuel : Nat) :
    s.runTo endPc fuel = some s := by
  cases fuel <;> simp [State.runTo, h]

/-- Elsewhere the run goes on exactly when the step raises nothing and gives a next state. -/
theorem runTo_succ_eq_some_iff {s : State} {endPc : Nat} (h : ¬ s.AtEnd endPc) (fuel : Nat) (t : State) :
    s.runTo endPc (fuel + 1) = some t ↔
      s.raises = false ∧ ∃ u, step s = .next u ∧ u.runTo endPc fuel = some t := by
  rw [State.runTo, if_neg h]
  cases s.raises <;> cases step s <;> simp

end Sys2Proof.Machine
end

