-- ==== Sys2Proof/Laws/PerInstr.lean ====
section
/-! SUPPORT. Family EncodeMatchesRow: the word of every instruction matches its row of the opcode table under the row's
mask (R54 to R56). One lemma per constructor. -/

namespace Sys2Proof.Laws

/-- The word of the instruction matches its opcode-table row. -/
def EncodeMatchesRow.Statement (i : Instr) : Prop := i.row.covers (encode i) = true

/-- Masking a word with FE00707F leaves the fixed fields and clears `vd`, `vs2` and `vs1`. -/
theorem and_mask_logical (f6 : BitVec 6) (vm : Bool) (s2 : RegNum) (s1 : BitVec 5) (d : RegNum) :
    opMvvWord f6 vm s2 s1 d &&& 0xFE00707F#32 = opMvvWord f6 vm 0 0 0 := by
  apply BitVec.eq_of_getLsbD_eq
  intro i hi
  rw [BitVec.getLsbD_and, getLsbD_opMvvWord _ _ _ _ _ _ hi, getLsbD_opMvvWord _ _ _ _ _ _ hi]
  interval_cases i <;> simp

/-- Masking a word with FC0FF07F leaves the fixed fields and the sub-operation code. -/
theorem and_mask_unary (f6 : BitVec 6) (vm : Bool) (s2 : RegNum) (s1 : BitVec 5) (d : RegNum) :
    opMvvWord f6 vm s2 s1 d &&& 0xFC0FF07F#32 = opMvvWord f6 false 0 s1 0 := by
  apply BitVec.eq_of_getLsbD_eq
  intro i hi
  rw [BitVec.getLsbD_and, getLsbD_opMvvWord _ _ _ _ _ _ hi, getLsbD_opMvvWord _ _ _ _ _ _ hi]
  interval_cases i <;> simp

/-- Masking a word with FDFFF07F leaves everything but `vm` and `vd`. -/
theorem and_mask_vid (f6 : BitVec 6) (vm : Bool) (s2 : RegNum) (s1 : BitVec 5) (d : RegNum) :
    opMvvWord f6 vm s2 s1 d &&& 0xFDFFF07F#32 = opMvvWord f6 false s2 s1 0 := by
  apply BitVec.eq_of_getLsbD_eq
  intro i hi
  rw [BitVec.getLsbD_and, getLsbD_opMvvWord _ _ _ _ _ _ hi, getLsbD_opMvvWord _ _ _ _ _ _ hi]
  interval_cases i <;> simp

theorem EncodeMatchesRow.vmandnotMm (vd vs2 vs1 : RegNum) : EncodeMatchesRow.Statement (.vmandnotMm vd vs2 vs1) := by
  simp only [EncodeMatchesRow.Statement, OpcodeRow.covers, Instr.row, encode, and_mask_logical]; decide

theorem EncodeMatchesRow.vmandMm (vd vs2 vs1 : RegNum) : EncodeMatchesRow.Statement (.vmandMm vd vs2 vs1) := by
  simp only [EncodeMatchesRow.Statement, OpcodeRow.covers, Instr.row, encode, and_mask_logical]; decide

theorem EncodeMatchesRow.vmorMm (vd vs2 vs1 : RegNum) : EncodeMatchesRow.Statement (.vmorMm vd vs2 vs1) := by
  simp only [EncodeMatchesRow.Statement, OpcodeRow.covers, Instr.row, encode, and_mask_logical]; decide

theorem EncodeMatchesRow.vmxorMm (vd vs2 vs1 : RegNum) : EncodeMatchesRow.Statement (.vmxorMm vd vs2 vs1) := by
  simp only [EncodeMatchesRow.Statement, OpcodeRow.covers, Instr.row, encode, and_mask_logical]; decide

theorem EncodeMatchesRow.vmornotMm (vd vs2 vs1 : RegNum) : EncodeMatchesRow.Statement (.vmornotMm vd vs2 vs1) := by
  simp only [EncodeMatchesRow.Statement, OpcodeRow.covers, Instr.row, encode, and_mask_logical]; decide

theorem EncodeMatchesRow.vmnandMm (vd vs2 vs1 : RegNum) : EncodeMatchesRow.Statement (.vmnandMm vd vs2 vs1) := by
  simp only [EncodeMatchesRow.Statement, OpcodeRow.covers, Instr.row, encode, and_mask_logical]; decide

theorem EncodeMatchesRow.vmnorMm (vd vs2 vs1 : RegNum) : EncodeMatchesRow.Statement (.vmnorMm vd vs2 vs1) := by
  simp only [EncodeMatchesRow.Statement, OpcodeRow.covers, Instr.row, encode, and_mask_logical]; decide

theorem EncodeMatchesRow.vmxnorMm (vd vs2 vs1 : RegNum) : EncodeMatchesRow.Statement (.vmxnorMm vd vs2 vs1) := by
  simp only [EncodeMatchesRow.Statement, OpcodeRow.covers, Instr.row, encode, and_mask_logical]; decide

theorem EncodeMatchesRow.vpopcM (rd vs2 : RegNum) (vm : Bool) : EncodeMatchesRow.Statement (.vpopcM rd vs2 vm) := by
  simp only [EncodeMatchesRow.Statement, OpcodeRow.covers, Instr.row, encode, and_mask_unary]; decide

theorem EncodeMatchesRow.vfirstM (rd vs2 : RegNum) (vm : Bool) : EncodeMatchesRow.Statement (.vfirstM rd vs2 vm) := by
  simp only [EncodeMatchesRow.Statement, OpcodeRow.covers, Instr.row, encode, and_mask_unary]; decide

theorem EncodeMatchesRow.vmsbfM (vd vs2 : RegNum) (vm : Bool) : EncodeMatchesRow.Statement (.vmsbfM vd vs2 vm) := by
  simp only [EncodeMatchesRow.Statement, OpcodeRow.covers, Instr.row, encode, and_mask_unary]; decide

theorem EncodeMatchesRow.vmsofM (vd vs2 : RegNum) (vm : Bool) : EncodeMatchesRow.Statement (.vmsofM vd vs2 vm) := by
  simp only [EncodeMatchesRow.Statement, OpcodeRow.covers, Instr.row, encode, and_mask_unary]; decide

theorem EncodeMatchesRow.vmsifM (vd vs2 : RegNum) (vm : Bool) : EncodeMatchesRow.Statement (.vmsifM vd vs2 vm) := by
  simp only [EncodeMatchesRow.Statement, OpcodeRow.covers, Instr.row, encode, and_mask_unary]; decide

theorem EncodeMatchesRow.viotaM (vd vs2 : RegNum) (vm : Bool) : EncodeMatchesRow.Statement (.viotaM vd vs2 vm) := by
  simp only [EncodeMatchesRow.Statement, OpcodeRow.covers, Instr.row, encode, and_mask_unary]; decide

theorem EncodeMatchesRow.vidV (vd : RegNum) (vm : Bool) : EncodeMatchesRow.Statement (.vidV vd vm) := by
  simp only [EncodeMatchesRow.Statement, OpcodeRow.covers, Instr.row, encode, and_mask_vid]; decide

end Sys2Proof.Laws
end

