-- ==== Sys2Proof/Tests/Slice0.lean ====
section
/-! SUPPORT. Tests. Expected values come from 95_test_vectors.md (the vector is named at each test) and from the
encoding column of 30_encoding.md. The `witness_` theorems show states and operands that meet the hypotheses of the
obligation they are named after, clause by clause. -/

namespace Sys2Proof.Tests
open Sys2Proof Sys2Proof.Machine

/- One theorem at a time: each kernel evaluation holds a thread, and all of them at once need too much memory. -/
set_option Elab.async false

/-! ## Configurations and instructions that the checks refuse or accept -/

theorem test_legal_standard : Config.standard.legal = true := by decide
theorem test_legal_largest_vlen :
    ({ Config.standard with vlenLog := 31, elenLog := 31, base := .rv64 } : Config).legal = true := by decide
theorem test_illegal_vlen_small : ({ Config.standard with vlenLog := 4, elenLog := 4 } : Config).legal = false := by
  decide
theorem test_illegal_vlen_large : ({ Config.standard with vlenLog := 32 } : Config).legal = false := by decide
theorem test_illegal_elen_small : ({ Config.standard with elenLog := 2 } : Config).legal = false := by decide
theorem test_illegal_elen_large : ({ Config.standard with elenLog := 8 } : Config).legal = false := by decide
theorem test_illegal_resetPc_misaligned : ({ Config.standard with resetPc := 0x1002 } : Config).legal = false := by
  decide
theorem test_illegal_resetPc_outside : ({ Config.standard with resetPc := 2 ^ 32 } : Config).legal = false := by
  decide

theorem test_wellFormed_viota : (Instr.viotaM 0 2 true).wellFormed = true := by decide
theorem test_illFormed_viota_source : (Instr.viotaM 4 4 true).wellFormed = false := by decide
theorem test_illFormed_viota_mask : (Instr.viotaM 0 2 false).wellFormed = false := by decide

/-! ## Decoding: one word per instruction, bit by bit from R54 to R56 -/

theorem test_decode_vmandnotMm : decode 0b01100010001000011010000011010111#32 = .instr (.vmandnotMm 1 2 3) := by decide
theorem test_decode_vmandMm : decode 0b01100110001000011010000011010111#32 = .instr (.vmandMm 1 2 3) := by decide
theorem test_decode_vmorMm : decode 0b01101010001000011010000011010111#32 = .instr (.vmorMm 1 2 3) := by decide
theorem test_decode_vmxorMm : decode 0b01101110001000011010000011010111#32 = .instr (.vmxorMm 1 2 3) := by decide
theorem test_decode_vmornotMm : decode 0b01110010001000011010000011010111#32 = .instr (.vmornotMm 1 2 3) := by decide
theorem test_decode_vmnandMm : decode 0b01110110001000011010000011010111#32 = .instr (.vmnandMm 1 2 3) := by decide
theorem test_decode_vmnorMm : decode 0b01111010001000011010000011010111#32 = .instr (.vmnorMm 1 2 3) := by decide
theorem test_decode_vmxnorMm : decode 0b01111111000001000010111111010111#32 = .instr (.vmxnorMm 31 16 8) := by decide
theorem test_decode_vpopcM : decode 0b01000010001010000010010101010111#32 = .instr (.vpopcM 10 2 true) := by decide
theorem test_decode_vfirstM : decode 0b01000000001110001010010111010111#32 = .instr (.vfirstM 11 3 false) := by decide
theorem test_decode_vmsbfM : decode 0b01010000001100001010000101010111#32 = .instr (.vmsbfM 2 3 false) := by decide
theorem test_decode_vmsofM : decode 0b01010010001100010010000101010111#32 = .instr (.vmsofM 2 3 true) := by decide
theorem test_decode_vmsifM : decode 0b01010010001100011010000101010111#32 = .instr (.vmsifM 2 3 true) := by decide
theorem test_decode_viotaM : decode 0b01010000001010000010001001010111#32 = .instr (.viotaM 4 2 false) := by decide
theorem test_decode_vidV : decode 0b01010000000010001010010001010111#32 = .instr (.vidV 8 false) := by decide

/-! Reserved words and words of no rule (R63, 95_test_vectors.md 2.5). -/

theorem test_decode_reserved_vid : decode 0x5238A157#32 = .reserved .vidVs2NotZero := by decide
theorem test_decode_reserved_logical : decode 0x6421A0D7#32 = .reserved .maskLogicalMasked := by decide
theorem test_decode_other_subcode : decode 0x42002057#32 = .notInSpec := by decide
theorem test_decode_other_opcode : decode 0x00000013#32 = .notInSpec := by decide
theorem test_decode_truncated : decodeBytes [0xD7, 0xA0, 0x21] = .error .truncated := by decide
theorem test_decode_bytes : decodeBytes [0xD7, 0xA0, 0x21, 0x66, 0x13] = .ok (.vmandMm 1 2 3, [0x13]) := by decide
theorem test_decodeTableWord : decodeTableWord 32 0x6621A0D7 = some (.vmandMm 1 2 3) := by decide
theorem test_decodeTableWord_reserved : decodeTableWord 32 0x6421A0D7 = none := by decide

/-! ## Small states -/

/-- The reset state of a configuration with a setting, `vl`, `vstart` and some vector registers; the others are 0. -/
def stateWith (c : Config) (vsew : Nat) (vlmul : Fin 4) (vl vstart : Nat) (regs : List (Nat × Nat)) : State :=
  { State.resetWith c with
    vtype := ⟨false, vsew, vlmul⟩
    vl := BitVec.ofNat _ vl
    vstart := BitVec.ofNat _ vstart
    v := Vector.ofFn fun n => BitVec.ofNat _ ((regs.lookup n.val).getD 0) }

/-- Configuration A of 95_test_vectors.md: SEW = 8, LMUL = 8. -/
def stA := stateWith Config.standard 0 3
/-- Configuration B: SEW = 32, LMUL = 2. -/
def stB := stateWith Config.standard 2 1
/-- Configuration C: SEW = 16, LMUL = 1. -/
def stC := stateWith Config.standard 1 0
/-- Configuration E: SEW = 32, LMUL = 1. -/
def stE := stateWith Config.standard 2 0
/-- Configuration D: VLEN = 512, SEW = 8, LMUL = 8. -/
def stD := stateWith { Config.standard with vlenLog := 9 } 0 3

/-- The 128-bit register with all bits set. -/
def ones : Nat := 2 ^ 128 - 1

/-- Vector register `n` of the next state. -/
def vAfter (n : RegNum) : Host.Outcome State Fault Refusal → Option Nat
  | .next t => some (t.readV n).toNat
  | _ => none

/-- Scalar register `n` of the next state. -/
def xAfter (n : RegNum) : Host.Outcome State Fault Refusal → Option Nat
  | .next t => some (t.readX n).toNat
  | _ => none

/-- The pc and `vstart` of the next state. -/
def pcAfter : Host.Outcome State Fault Refusal → Option (Nat × Nat)
  | .next t => some (t.pc.toNat, t.vstart.toNat)
  | _ => none

/-- The fault, if the outcome is one. -/
def faultOf : Host.Outcome State Fault Refusal → Option Fault
  | .fault f => some f
  | _ => none

/-- The refusal, if the outcome is one. -/
def refusalOf : Host.Outcome State Fault Refusal → Option Refusal
  | .refused r => some r
  | _ => none

/-- `v2` and `v3` of vectors L10. -/
def regs10 : List (Nat × Nat) :=
  [(2, 0xFFFF0000000100020003FFFE00050001), (3, 0x0001FFFF0000000300020001FFFE0001), (1, ones)]

/-- `v0`, `v4` and `v5` of vectors I2, D2 and D4, with `v2` of I1. -/
def regsI2 : List (Nat × Nat) :=
  [(0, 0x00010001000100000001000000010001), (2, 0x00010000000000010000000000000001),
   (4, 0x00000006000000070000000800000009), (5, 0x00000002000000030000000400000005)]

/-! ## One step of each instruction -/

/-- L1 -/
theorem test_vmand : vAfter 1 (exec (.vmandMm 1 2 3) (stA 8 0 [(2, 0xCA), (3, 0xA6), (1, ones)])) = some 0x82 := by
  decide +kernel
/-- L10 -/
theorem test_vmand_mlen16 :
    vAfter 1 (exec (.vmandMm 1 2 3) (stB 8 0 regs10)) = some 0x00010000000000000000000000000001 := by decide +kernel
/-- L2 -/
theorem test_vmnand : vAfter 1 (exec (.vmnandMm 1 2 3) (stA 8 0 [(2, 0xCA), (3, 0xA6), (1, ones)])) = some 0x7D := by
  decide +kernel
/-- L10c -/
theorem test_vmnand_mlen16 :
    vAfter 1 (exec (.vmnandMm 1 2 3) (stB 8 0 regs10)) = some 0x00000001000100010001000100010000 := by decide +kernel
/-- L3 -/
theorem test_vmandnot :
    vAfter 1 (exec (.vmandnotMm 1 2 3) (stA 8 0 [(2, 0xCA), (3, 0xA6), (1, ones)])) = some 0x48 := by decide +kernel
/-- L17: the destination is a source -/
theorem test_vmandnot_overlap :
    vAfter 3 (exec (.vmandnotMm 3 2 3) (stA 8 0 [(2, 0xCA), (3, 0xA6)])) = some 0x48 := by decide +kernel
/-- L11 -/
theorem test_vmxor_vstart :
    vAfter 1 (exec (.vmxorMm 1 2 3) (stA 6 3 [(2, 0xCA), (3, 0xA6), (1, ones)])) = some 0x2F := by decide +kernel
/-- L12: elements from `vl` to `vstart` keep their value (D10) -/
theorem test_vmxor_vstart_past_vl :
    vAfter 1 (exec (.vmxorMm 1 2 3) (stA 4 6 [(2, 0xCA), (3, 0xA6), (1, ones)])) = some 0x3F := by decide +kernel
/-- L12b -/
theorem test_vmor_vstart :
    vAfter 1 (exec (.vmorMm 1 2 3) (stB 6 3 ((1, 0xAAAABBBBCCCCDDDDEEEEFFFF11112222) :: regs10))) =
      some 0x00000000000100010001FFFF11112222 := by decide +kernel
/-- L18 -/
theorem test_vmor_v0 :
    vAfter 0 (exec (.vmorMm 0 4 5) (stE 3 0 [(0, ones), (4, 0x0000000100000000FFFFFFFF00000002),
      (5, 0x00000001000000010000000100000001)])) = some 0x00000000000000010000000100000001 := by decide +kernel
/-- L6 -/
theorem test_vmnor : vAfter 1 (exec (.vmnorMm 1 2 3) (stA 8 0 [(2, 0xCA), (3, 0xA6), (1, ones)])) = some 0x11 := by
  decide +kernel
/-- L7 -/
theorem test_vmornot :
    vAfter 1 (exec (.vmornotMm 1 2 3) (stA 8 0 [(2, 0xCA), (3, 0xA6), (1, ones)])) = some 0xDB := by decide +kernel
/-- L10d -/
theorem test_vmornot_mlen16 :
    vAfter 1 (exec (.vmornotMm 1 2 3) (stB 8 0 regs10)) = some 0x00010000000100000001000000010001 := by
  decide +kernel
/-- L8 -/
theorem test_vmxnor :
    vAfter 1 (exec (.vmxnorMm 1 2 3) (stA 8 0 [(2, 0xCA), (3, 0xA6), (1, ones)])) = some 0x93 := by decide +kernel
/-- L14b: the largest `vstart` leaves the register and is cleared -/
theorem test_vmxnor_vstart_largest :
    vAfter 1 (exec (.vmxnorMm 1 2 3) (stA 8 0xFFFFFFFF [(1, 0x1234)])) = some 0x1234 ∧
      pcAfter (exec (.vmxnorMm 1 2 3) (stA 8 0xFFFFFFFF [(1, 0x1234)])) = some (0x1004, 0) := by decide +kernel
/-- P2 -/
theorem test_vpopc_masked :
    xAfter 10 (exec (.vpopcM 10 2 false) (stA 8 0 [(0, 0xC3), (2, 0x95)])) = some 2 := by decide +kernel
/-- P10 -/
theorem test_vpopc_vstart :
    faultOf (exec (.vpopcM 10 2 true) (stA 8 1 [(2, 0x95)])) = some (.illegalInstruction 0x1000 0x42282557#32) := by
  decide +kernel
/-- F2 -/
theorem test_vfirst_masked :
    xAfter 11 (exec (.vfirstM 11 3 false) (stA 8 0 [(0, 0xC3), (3, 0x94)])) = some 7 := by decide +kernel
/-- F4 -/
theorem test_vfirst_none : xAfter 11 (exec (.vfirstM 11 3 true) (stA 2 0 [(3, 0x94)])) = some 0xFFFFFFFF := by
  decide +kernel
/-- S4 -/
theorem test_vmsbf_masked :
    vAfter 2 (exec (.vmsbfM 2 3 false) (stA 8 0 [(0, 0xC3), (3, 0x94), (2, 0x3C)])) = some 0x7F := by decide +kernel
/-- S16 -/
theorem test_vmsbf_mlen16 :
    vAfter 2 (exec (.vmsbfM 2 3 true) (stC 8 0 [(2, ones), (3, 0x000100000000000100000001FFFE0000)])) =
      some 0x00000000000000000000000000010001 := by decide +kernel
/-- S11: the destination is the source and `v0` -/
theorem test_vmsif_strcpy : vAfter 0 (exec (.vmsifM 0 0 true) (stA 8 0 [(0, 0x28)])) = some 0x0F := by decide +kernel
/-- S17 -/
theorem test_vmsif_mlen16 :
    vAfter 2 (exec (.vmsifM 2 3 true) (stC 8 0 [(2, ones), (3, 0x000100000000000100000001FFFE0000)])) =
      some 0x00000000000000000000000100010001 := by decide +kernel
/-- S4 -/
theorem test_vmsof_masked :
    vAfter 2 (exec (.vmsofM 2 3 false) (stA 8 0 [(0, 0xC3), (3, 0xD4), (2, 0x3C)])) = some 0x7C := by decide +kernel
/-- S15: the destination is the mask -/
theorem test_vmsof_v0 :
    vAfter 0 (exec (.vmsofM 0 3 false) (stA 8 0 [(0, 0xC3), (3, 0x94)])) = some 0x80 := by decide +kernel
/-- I2 -/
theorem test_viota_masked :
    vAfter 4 (exec (.viotaM 4 2 false) (stB 8 0 regsI2)) = some 0x00000001000000070000000100000000 ∧
      vAfter 5 (exec (.viotaM 4 2 false) (stB 8 0 regsI2)) = some 0x00000001000000010000000100000005 := by
  decide +kernel
/-- I10: the second register of the group is the source -/
theorem test_viota_overlap :
    faultOf (exec (.viotaM 4 5 true) (stB 8 0 [])) = some (.illegalInstruction 0x1000 0x52582257#32) := by
  decide +kernel
/-- D4 -/
theorem test_vid_vstart :
    vAfter 4 (exec (.vidV 4 true) (stB 8 3 regsI2)) = some 0x00000003000000070000000800000009 ∧
      vAfter 5 (exec (.vidV 4 true) (stB 8 3 regsI2)) = some 0x00000007000000060000000500000004 := by decide +kernel
/-- D7: element 256 is the low byte of `v12`, and the index is cut to 8 bits -/
theorem test_vid_truncates :
    (vAfter 12 (exec (.vidV 8 true) (stD 512 0 []))).map (· % 2 ^ 24) = some 0x020100 := by decide +kernel

/-! ## The step, the traps and the switches -/

/-- The word placed at the pc is fetched and run (L1). -/
theorem test_step :
    vAfter 1 (step ((stA 8 0 [(2, 0xCA), (3, 0xA6)]).withFetchWord 32 0x6621A0D7)) = some 0x82 := by decide +kernel
/-- R59: a word of no rule is refused. -/
theorem test_step_refused :
    refusalOf (step (State.reset.withFetchWord 32 0x13)) = some (.notInSpec 0x13#32) := by decide +kernel
/-- L20: a reserved word raises illegal instruction. -/
theorem test_step_reserved :
    faultOf (step (State.reset.withFetchWord 32 0x6421A0D7)) = some (.illegalInstruction 0x1000 0x6421A0D7#32) := by
  decide +kernel
/-- Reset places no program, so the fetch stops (notes/assumptions/18.md, 29.md). -/
theorem test_step_reset : faultOf (step State.reset) = some (.fetchNoText 0x1000) := by decide +kernel
/-- R43: a misaligned pc is not fetched from. -/
theorem test_step_misaligned :
    faultOf (step { State.reset with pc := 0x1002#32 }) = some (.fetchMisaligned 0x1002) := by decide +kernel
/-- R133: entry into the trap, `vstart` left as it was (D23). -/
theorem test_trap :
    (match exec (.vpopcM 10 2 true)
        { stateWith { Config.standard with trapModel := .machineTrap true } 0 3 8 1 [] with
          mtvec := 0x80000101#32, priv := .lower } with
      | .next t => some (t.pc.toNat, t.mepc.toNat, t.mcause.toNat, t.mtval.toNat, t.vstart.toNat, t.priv)
      | _ => none) = some (0x80000100, 0x1000, 2, 0x42282557, 1, .machine) := by decide +kernel
/-- R155: a run of one instruction ends when the pc reaches END_PC. -/
theorem test_run :
    ((stA 8 0 [(2, 0xCA), (3, 0xA6)]).withFetchWord 32 0x6621A0D7 |>.runTo 0x1004 5).map
      (fun t => (t.readV 1).toNat) = some 0x82 := by decide +kernel
/-- R155: reaching END_PC by way of the trap is no successful end. -/
theorem test_run_raises :
    let s : State := { stateWith { Config.standard with trapModel := .machineTrap true } 0 3 8 1 [] with
      mtvec := 0x1004#32 }
    pcAfter (step (s.withFetchWord 32 0x42282557)) = some (0x1004, 1) ∧
      (s.withFetchWord 32 0x42282557).raises = true ∧
      ((s.withFetchWord 32 0x42282557).runTo 0x1004 5).isNone = true := by decide +kernel
/-- L13 with VL0_WRITES_TAIL true and false (D32). -/
theorem test_vl_zero :
    vAfter 1 (exec (.vmxnorMm 1 2 3) (stA 0 0 [(1, ones)])) = some 0 ∧
      vAfter 1 (exec (.vmxnorMm 1 2 3)
        (stateWith { Config.standard with vl0WritesTail := false } 0 3 0 0 [(1, ones)])) = some ones := by
  decide +kernel

/-! ## Witnesses: the hypotheses of each obligation can be met -/

/-- The outcome is a next state. -/
def completes : Host.Outcome State Fault Refusal → Bool
  | .next _ => true
  | _ => false

/-- A state of configuration B that all the witnesses about the invariant share: `vl` = VLMAX = 8. -/
def wB : State := stB 8 0 regsI2
/-- The same with `vill` set. -/
def wBVill : State := { wB with vtype := ⟨true, 2, 1⟩ }
/-- The same with `vstart` = 1. -/
def wBVstart : State := { wB with vstart := 1#_ }
/-- The state of vector D8: configuration E, all four elements in the body. -/
def wE : State := stE 4 0 [(0, 0x00000001000000000000000100000001)]
/-- RV64 with VLEN as large as R7 allows. -/
def wLargest : Config := { Config.standard with base := .rv64, vlenLog := 31 }

theorem wB_inv : wB.Inv :=
  ⟨by decide +kernel, by decide +kernel, by decide +kernel, fun _ => by decide +kernel, fun _ => by decide +kernel,
    by decide +kernel, by decide +kernel⟩

theorem wBVstart_inv : wBVstart.Inv :=
  ⟨by decide +kernel, by decide +kernel, by decide +kernel, fun _ => by decide +kernel, fun _ => by decide +kernel,
    by decide +kernel, by decide +kernel⟩

theorem wBVill_inv : wBVill.Inv :=
  ⟨by decide +kernel, by decide +kernel, by decide +kernel, fun _ => by decide +kernel, fun _ => by decide +kernel,
    by decide +kernel, by decide +kernel⟩

theorem wE_inv : wE.Inv :=
  ⟨by decide +kernel, by decide +kernel, by decide +kernel, fun _ => by decide +kernel, fun _ => by decide +kernel,
    by decide +kernel, by decide +kernel⟩

/-- A state with the instruction `vmand.mm v1, v2, v3` at the pc. -/
def wText : State := wB.withFetchWord 32 0x6621A0D7

theorem wText_inv : wText.Inv :=
  ⟨by decide +kernel, by decide +kernel, by decide +kernel, fun _ => by decide +kernel, fun _ => by decide +kernel,
    by decide +kernel, by decide +kernel⟩

theorem witness_EncodeOfDecode : decode 0x6621A0D7#32 = .instr (.vmandMm 1 2 3) := by decide

theorem witness_ReservedWordsRaise :
    (wB.withFetchWord 32 0x5238A257).fetch.toOption = some 0x5238A257#32 ∧
      decode 0x5238A257#32 = .reserved .vidVs2NotZero ∧
    (wB.withFetchWord 32 0x6421A0D7).fetch.toOption = some 0x6421A0D7#32 ∧
      decode 0x6421A0D7#32 = .reserved .maskLogicalMasked := by decide +kernel

theorem witness_OtherWordsRefused :
    (wB.withFetchWord 32 0x00000013).fetch.toOption = some 0x00000013#32 ∧ decode 0x00000013#32 = .notInSpec := by
  decide +kernel

theorem witness_AssemblerLineNamesInstruction :
    (Instr.vpopcM 10 2 false).asm = ⟨"vpopc.m", [.x 10, .v 2, .v0t]⟩ := by decide

theorem witness_StepRunsDecodedInstruction :
    wText.pc.toNat % 4 = 0 ∧ wText.mem.readBytes wText.pc.toNat 4 = some [0xD7#8, 0xA0#8, 0x21#8, 0x66#8] ∧
      decode (wordOfBytes 0xD7#8 0xA0#8 0x21#8 0x66#8) = .instr (.vmandMm 1 2 3) := by decide +kernel

theorem witness_FetchIsLittleEndian :
    wText.pc.toNat % 4 = 0 ∧ ∀ k : Fin 4, wText.mem.read (wText.pc.toNat + k.val) =
      some ((#v[0xD7#8, 0xA0#8, 0x21#8, 0x66#8] : Vector Byte 4)[k]) := by decide +kernel

theorem witness_PlacedInstructionRunsNext : wB.pc.toNat % 4 = 0 := by decide +kernel

theorem witness_StepKeepsTextAndSetting : completes (step wText) = true := by decide +kernel

theorem witness_ResetIsAdmitted : Config.standard.legal = true ∧ wLargest.legal = true := by decide

theorem witness_ResetSatisfiesInvariant : Config.standard.legal = true ∧ wLargest.legal = true := by decide

theorem witness_StepKeepsInvariant : wText.Inv ∧ completes (step wText) = true :=
  ⟨wText_inv, by decide +kernel⟩

theorem witness_ScalarRegistersReadBack : (1 : RegNum) ≠ 0 ∧ (31 : RegNum) ≠ 0 := by decide

theorem witness_MaskElementsFillRegister : wB.Inv ∧ wB.vtype.vill = false := ⟨wB_inv, by decide +kernel⟩

theorem witness_VectorLengthBounded :
    wB.Inv ∧ wB.vtype.vill = false ∧ 0 < wB.vlmax ∧ 7 < wB.vlmax ∧ wB.vlmax = 8 :=
  ⟨wB_inv, by decide +kernel⟩

theorem witness_ElementClassesPartition : 0 < wBVstart.vlmax ∧ 7 < wBVstart.vlmax := by decide +kernel

theorem witness_VtypeCsrLayout : wB.vtype.vsew < 8 ∧ 5 < wB.cfg.xlen - 1 ∧ 30 < wB.cfg.xlen - 1 := by
  decide +kernel

theorem witness_MaskLogicalResult :
    (Instr.vmandnotMm, (fun a b => a && !b), 0x62002057#32) ∈ logicalRules ∧ wB.vtype.vill = false ∧
      ¬ wB.noTailWrite ∧ 0 < wB.vlmax ∧ 7 < wB.vlmax := by
  refine ⟨by simp [logicalRules], by decide +kernel⟩

/-- An element of each class of `MaskLogicalResult`: before `vstart`, body, tail. -/
theorem witness_MaskLogicalResult_elements :
    2 < (stB 6 3 []).vstart.toNat ∧ ¬ 3 < (stB 6 3 []).vstart.toNat ∧ 5 < (stB 6 3 []).vl.toNat ∧
      ¬ 6 < (stB 6 3 []).vl.toNat ∧ ¬ (stB 6 3 []).noTailWrite := by decide +kernel

/-- L17 stopped before element 4, its destination a source: `v3` has the results 1000 below and the old 1010 from
element 4 up. The last clause takes `k` = `vl`. -/
theorem witness_PartlyRunMaskLogicalResumes :
    (Instr.vmandnotMm, (fun a b => a && !b), 0x62002057#32) ∈ logicalRules ∧ wB.Inv ∧ wB.vtype.vill = false ∧
      wB.vstart.toNat = 0 ∧
      (vAfter 3 (exec (.vmandnotMm 3 2 3) (stA 8 0 [(2, 0xCA), (3, 0xA6)])) = some 0x48 ∧
        (∀ i < 4, melem 1 0xA8#128 i = melem 1 0x48#128 i) ∧
        ∀ i < 128, 4 ≤ i → melem 1 0xA8#128 i = melem 1 0xA6#128 i) ∧
      (8#32).toNat ≤ wB.vl.toNat := by
  refine ⟨by simp [logicalRules], wB_inv, by decide +kernel⟩

/-- `vid.v v0, v0.t` of vector D8 stopped before element 2: element 0 holds its result 0, element 1 its result 1, the
other two their old values. -/
theorem witness_PartlyRunVidResumes :
    wE.Inv ∧ wE.vtype.vill = false ∧ (0 : RegNum).val % wE.lmul = 0 ∧ ¬ 1 < wE.lmul ∧ wE.vstart.toNat = 0 ∧
      (2#32).toNat ≤ wE.vl.toNat ∧
      vAfter 0 (exec (.vidV 0 false) wE) = some 0x00000003000000000000000100000000 ∧
      (∀ i < 2, elem 32 4 (Vector.replicate 32 0x00000001000000000000000100000000#128) 0 i =
        elem 32 4 (Vector.replicate 32 0x00000003000000000000000100000000#128) 0 i) ∧
      ∀ i < 4, 2 ≤ i → elem 32 4 (Vector.replicate 32 0x00000001000000000000000100000000#128) 0 i =
        elem 32 4 (Vector.replicate 32 0x00000001000000000000000100000001#128) 0 i :=
  ⟨wE_inv, by decide +kernel⟩

/-- `vl` = 0 with the switch off, and operands for each clause. -/
theorem witness_ZeroLengthSwitchOff :
    (stateWith { Config.standard with vl0WritesTail := false } 2 1 0 0 []).noTailWrite ∧
      (stateWith { Config.standard with vl0WritesTail := false } 2 1 0 0 []).vtype.vill = false ∧
      (stateWith { Config.standard with vl0WritesTail := false } 2 1 0 0 []).vstart.toNat = 0 ∧
      (4 : RegNum).val % (stateWith { Config.standard with vl0WritesTail := false } 2 1 0 0 []).lmul = 0 ∧
      (stateWith { Config.standard with vl0WritesTail := false } 2 1 0 0 []).lmul = 2 ∧ (4 : RegNum) ≠ 0 := by
  decide +kernel

theorem witness_SixteenFunctionsComputed :
    ((false, true, true, true), Instr.vmorMm 1 2 3) ∈ sixteenFunctions 1 2 3 ∧ wB.vtype.vill = false ∧
      ¬ wB.noTailWrite ∧ 0 < wB.vlmax ∧ 7 < wB.vlmax := by decide +kernel

theorem witness_PseudoInstructionEffects :
    wB.vtype.vill = false ∧ ¬ wB.noTailWrite ∧ 7 < wB.vlmax := by decide +kernel

theorem witness_MaskLogicalResumesAtVstart :
    (Instr.vmandMm, (fun a b => a && b), 0x66002057#32) ∈ logicalRules ∧ (1 : RegNum) ≠ 2 ∧ (1 : RegNum) ≠ 3 ∧
      wB.Inv ∧ wB.vtype.vill = false ∧ wB.vstart.toNat = 0 ∧ 0 < wB.vl.toNat ∧ (3#32).toNat ≤ wB.vl.toNat ∧
      (8#32).toNat ≤ wB.vl.toNat := by
  refine ⟨by simp [logicalRules], by decide, by decide, wB_inv, by decide +kernel⟩

/-- A register that holds the result in elements 0 to 2 and something else above, with the result of
`vmand.mm v1, v2, v3` on vectors L10. -/
theorem witness_MaskLogicalResumesAtVstart_partial :
    vAfter 1 (exec (.vmandMm 1 2 3) (stB 8 0 regs10)) = some 0x00010000000000000000000000000001 ∧
      ∀ i < 3, melem 16 0xFFFFFFFFFFFFFFFFFFFF000000000001#128 i =
        melem 16 0x00010000000000000000000000000001#128 i := by decide +kernel

theorem witness_VpopcCountsActiveSetElements :
    wB.vtype.vill = false ∧ wB.vstart.toNat = 0 ∧ wBVill.vtype.vill = true ∧ wBVstart.vstart.toNat ≠ 0 := by
  decide +kernel

theorem witness_VfirstFindsLowestActiveSetElement :
    wB.vtype.vill = false ∧ wB.vstart.toNat = 0 ∧ wBVill.vtype.vill = true ∧ wBVstart.vstart.toNat ≠ 0 ∧
      (∀ i < wB.vl.toNat, wB.enabledSet false 7 i = false) ∧
      0 < wB.vl.toNat ∧ wB.enabledSet true 2 0 = true ∧
      (7 < wB.vl.toNat ∧ (stB 8 0 [(2, 2 ^ 112)]).enabledSet true 2 7 = true ∧
        ∀ j < 7, (stB 8 0 [(2, 2 ^ 112)]).enabledSet true 2 j = false) := by decide +kernel

theorem witness_VfirstNegativeMeansNoneFound :
    wB.Inv ∧ wB.vtype.vill = false ∧ wB.vstart.toNat = 0 ∧ (10 : RegNum) ≠ 0 := ⟨wB_inv, by decide +kernel⟩

theorem witness_SetFirstResult :
    (Instr.vmsofM, (fun a i => a i && decide (∀ j < i, a j = false)), 0x50012057#32) ∈ setFirstRules ∧
      wB.vtype.vill = false ∧ wB.vstart.toNat = 0 ∧ 0 < wB.vlmax ∧ 7 < wB.vlmax ∧
      wBVill.vtype.vill = true ∧ wBVstart.vstart.toNat ≠ 0 := by
  refine ⟨by simp [setFirstRules], by decide +kernel⟩

/-- An element of each class of `SetFirstResult`: tail, tail left alone, active, inactive. -/
theorem witness_SetFirstResult_elements :
    (stB 5 0 []).vl.toNat ≤ 5 ∧ ¬ (stB 5 0 []).noTailWrite ∧
      (stateWith { Config.standard with vl0WritesTail := false } 2 1 0 0 []).noTailWrite ∧
      ¬ wB.vl.toNat ≤ 7 ∧ mbit wB.mlen (wB.readV 0) 7 = true ∧ mbit wB.mlen (wB.readV 0) 4 = false := by
  decide +kernel

theorem witness_SetFirstFamilyLaws :
    wB.Inv ∧ wB.vtype.vill = false ∧ wB.vstart.toNat = 0 ∧ (10 : RegNum) ≠ 0 ∧ 7 < wB.vl.toNat :=
  ⟨wB_inv, by decide +kernel⟩

/-- Masked `vid.v v0` with LMUL = 1, the form that runs (D8). -/
theorem witness_VidWritesIndices_v0 :
    wE.Inv ∧ wE.vtype.vill = false ∧ (0 : RegNum).val % wE.lmul = 0 ∧ ¬ 1 < wE.lmul ∧
      vAfter 0 (exec (.vidV 0 false) wE) = some 0x00000003000000000000000100000000 :=
  ⟨wE_inv, by decide +kernel⟩

theorem witness_ViotaWritesPrefixCounts :
    wB.Inv ∧ wB.vtype.vill = false ∧ (4 : RegNum).val % wB.lmul = 0 ∧ wB.vstart.toNat = 0 ∧
      ¬ ((4 : RegNum).val ≤ (2 : RegNum).val ∧ (2 : RegNum).val < (4 : RegNum).val + wB.lmul) ∧
      ¬ ((4 : RegNum).val ≤ (6 : RegNum).val ∧ (6 : RegNum).val < (4 : RegNum).val + wB.lmul) ∧
      (4 : RegNum) ≠ 0 ∧ 7 < wB.vlmax :=
  ⟨wB_inv, by decide +kernel⟩

/-- The five causes of `ViotaWritesPrefixCounts`, each in a state with the invariants; the last two are the overlap with
`vs2` at both ends of the group, and masked with destination `v0`. -/
theorem witness_ViotaWritesPrefixCounts_illegal :
    (wBVill.Inv ∧ wBVill.vtype.vill = true) ∧ (5 : RegNum).val % wB.lmul ≠ 0 ∧
      (wBVstart.Inv ∧ wBVstart.vstart.toNat ≠ 0) ∧
      ((4 : RegNum).val ≤ (4 : RegNum).val ∧ (4 : RegNum).val < (4 : RegNum).val + wB.lmul) ∧
      ((4 : RegNum).val ≤ (5 : RegNum).val ∧ (5 : RegNum).val < (4 : RegNum).val + wB.lmul) ∧
      (wB.Inv ∧ faultOf (exec (.viotaM 0 2 false) wB) = some (.illegalInstruction 0x1000 0x50282057#32)) :=
  ⟨⟨wBVill_inv, by decide +kernel⟩, by decide +kernel, ⟨wBVstart_inv, by decide +kernel⟩, by decide +kernel,
    by decide +kernel, wB_inv, by decide +kernel⟩

theorem witness_VidWritesIndices :
    (wBVstart.Inv ∧ wBVstart.vtype.vill = false ∧ (4 : RegNum).val % wBVstart.lmul = 0 ∧
      ¬ ((4 : RegNum) = 0) ∧ 0 < wBVstart.vstart.toNat ∧ 7 < wBVstart.vlmax) ∧
    (wBVill.Inv ∧ wBVill.vtype.vill = true) ∧ (wB.Inv ∧ (3 : RegNum).val % wB.lmul ≠ 0) ∧
    (wB.vtype.vill = false ∧ 1 < wB.lmul) :=
  ⟨⟨wBVstart_inv, by decide +kernel⟩, ⟨wBVill_inv, by decide +kernel⟩, ⟨wB_inv, by decide +kernel⟩,
    by decide +kernel⟩

/-- Element 7 of `wB` is enabled under the mask. -/
theorem witness_ElementValuesTruncated :
    wB.Inv ∧ wB.vtype.vill = false ∧ (4 : RegNum).val % wB.lmul = 0 ∧ wB.vstart.toNat = 0 ∧
      ¬ ((4 : RegNum).val ≤ (2 : RegNum).val ∧ (2 : RegNum).val < (4 : RegNum).val + wB.lmul) ∧
      (4 : RegNum) ≠ 0 ∧ 7 < wB.vl.toNat ∧ mbit wB.mlen (wB.readV 0) 7 = true ∧ wB.vlmax ≤ 2 ^ wB.sew :=
  ⟨wB_inv, by decide +kernel⟩

theorem witness_VillAlwaysRaises : wBVill.vtype.vill = true := by decide +kernel

theorem witness_VidIsIotaOfSetMask :
    (stB 8 0 [(2, ones)]).vtype.vill = false ∧ (4 : RegNum).val % (stB 8 0 [(2, ones)]).lmul = 0 ∧
      (stB 8 0 [(2, ones)]).vstart.toNat = 0 ∧
      ¬ ((4 : RegNum).val ≤ (2 : RegNum).val ∧ (2 : RegNum).val < (4 : RegNum).val + (stB 8 0 [(2, ones)]).lmul) ∧
      ∀ i < (stB 8 0 [(2, ones)]).vl.toNat,
        mbit (stB 8 0 [(2, ones)]).mlen ((stB 8 0 [(2, ones)]).readV 2) i = true := by decide +kernel

theorem witness_IotaRunningCountIsPopcount :
    wB.Inv ∧ wB.vtype.vill = false ∧ (4 : RegNum).val % wB.lmul = 0 ∧ wB.vstart.toNat = 0 ∧
      ¬ ((4 : RegNum).val ≤ (2 : RegNum).val ∧ (2 : RegNum).val < (4 : RegNum).val + wB.lmul) ∧
      0 < wB.vl.toNat ∧ (10 : RegNum) ≠ 0 :=
  ⟨wB_inv, by decide +kernel⟩

theorem witness_IllegalExactlyOnCauses :
    wBVstart.cfg.trapModel = .terminalFault ∧
      faultOf (exec (.vmsifM 2 3 true) wBVstart) = some (.illegalInstruction 0x1000 0x5231A157#32) ∧
      (wB.withFetchWord 32 0x5238A257).cfg.trapModel = .terminalFault ∧
      (wB.withFetchWord 32 0x5238A257).fetch.toOption = some 0x5238A257#32 ∧
      decode 0x5238A257#32 = .reserved .vidVs2NotZero := by decide +kernel

/-- The three outcomes: completion, the fault, the refusal of D9. -/
theorem witness_InstructionOutcomes :
    wB.cfg.trapModel = .terminalFault ∧ completes (exec (.vidV 0 true) wB) = true ∧
      faultOf (exec (.vidV 3 true) wB) = some (.illegalInstruction 0x1000 0x5208A1D7#32) ∧
      refusalOf (exec (.vidV 0 false) wB) = some .vidMaskedGroupHoldsV0 := by decide +kernel

/-- A step that raises, and one that completes. -/
theorem witness_StepRaises :
    wText.cfg.trapModel = .terminalFault ∧ (wB.withFetchWord 32 0x5238A257).raises = true ∧
      wText.raises = false ∧ completes (step wText) = true := by decide +kernel

/-- At the end address, and one instruction before it. -/
theorem witness_RunEndsAtFirstArrival :
    wText.AtEnd 0x1000 ∧ ¬ wText.AtEnd 0x1004 ∧ (wText.runTo 0x1000 0).isSome = true ∧
      (wText.runTo 0x1004 1).isSome = true := by decide +kernel

theorem witness_TrapEntryState :
    (State.resetWith { Config.standard with trapModel := .machineTrap true }).cfg.trapModel = .machineTrap true ∧
    (State.resetWith { Config.standard with trapModel := .machineTrap false }).cfg.trapModel = .machineTrap false :=
  ⟨rfl, rfl⟩

/-- An instruction of each shape of `CompletedInstructionFrame` completes. -/
theorem witness_CompletedInstructionFrame :
    wB.cfg.trapModel = .terminalFault ∧ completes (exec (.vmorMm 1 2 3) wB) = true ∧
      completes (exec (.vfirstM 11 3 false) wB) = true ∧ completes (exec (.vmsofM 2 3 true) wB) = true ∧
      completes (exec (.viotaM 4 2 false) wB) = true ∧ completes (exec (.vidV 4 false) wB) = true := by
  decide +kernel

theorem witness_InstructionsIgnoreMode : wB.cfg.trapModel = .terminalFault ∧ wB.priv = .machine := by decide +kernel

theorem witness_IllFormedAlwaysRaises :
    (Instr.viotaM 4 4 true).wellFormed = false ∧ (Instr.viotaM 0 2 false).wellFormed = false := by decide

end Sys2Proof.Tests
end

section
/-! PROOFS. The family of 00_scope.md: the quantities of a setting (R6, R7), the element classes (R11) and the outcomes
of one instruction (R14). -/

namespace Sys2Proof.Machine

/-! ## Quantities of a setting (R6, R7) -/

theorem State.mlen_le_sew (s : State) : s.mlen ≤ s.sew := Nat.div_le_self _ _

theorem State.Inv.mlen_le_elen {s : State} (h : s.Inv) (hv : s.vtype.vill = false) : s.mlen ≤ s.cfg.elen :=
  s.mlen_le_sew.trans (h.sewLe hv)

/-- The two ways of counting elements agree in every state: LMUL cancels, because SEW = MLEN * LMUL (R6). -/
theorem State.vlmax_eq_vlen_mul_lmul_div_sew (s : State) : s.vlmax = s.cfg.vlen * s.lmul / s.sew := by
  rw [State.vlmax, ← s.mlen_mul_lmul, Nat.mul_div_mul_right _ _ s.lmul_pos]

theorem State.vlmax_le_vlen (s : State) : s.vlmax ≤ s.cfg.vlen := Nat.div_le_self _ _

/-- The bound on VLEN that a legal configuration carries (R7). -/
theorem vlen_le_of_legal {c : Config} (h : c.legal = true) : c.vlen ≤ 2 ^ 31 := by
  simp only [Config.legal, Bool.and_eq_true, decide_eq_true_eq] at h
  obtain ⟨⟨⟨⟨⟨_, hle⟩, _⟩, _⟩, _⟩, _⟩ := h
  exact Nat.pow_le_pow_right (by decide) hle

theorem State.Inv.vlmax_le {s : State} (h : s.Inv) : s.vlmax ≤ 2 ^ 31 :=
  s.vlmax_le_vlen.trans (vlen_le_of_legal h.config)

/-- The lower half of the XLEN-bit integers, those with the sign bit clear, reaches at least to 2^31 (R5). -/
theorem two_mul_lt_two_pow_xlen (c : Config) {i : Nat} (hi : i < 2 ^ 31) : 2 * i < 2 ^ c.xlen := by
  rcases xlen_cases c with hx | hx <;> rw [hx] <;> omega

/-- A number below 2^31 fits an XLEN-bit integer with its highest bit clear (R7). -/
theorem toNat_ofNat_xlen_and_msb (c : Config) {i : Nat} (hi : i < 2 ^ 31) :
    (BitVec.ofNat c.xlen i).toNat = i ∧ (BitVec.ofNat c.xlen i).msb = false := by
  have hlt := two_mul_lt_two_pow_xlen c hi
  have hval : (BitVec.ofNat c.xlen i).toNat = i := by
    rw [BitVec.toNat_ofNat, Nat.mod_eq_of_lt (by omega)]
  refine ⟨hval, ?_⟩
  rw [BitVec.msb_eq_false_iff_two_mul_lt, hval]
  exact hlt

/-- Settles O16: MLEN is a power of two in every state, and the invariants make the mask elements fill a register. -/
theorem maskElementsFillRegister : Obligations.MaskElementsFillRegister := by
  intro s h hv
  exact ⟨rfl, ⟨_, s.mlen_eq_pow⟩, s.mlen_pos, h.mlen_le_elen hv, h.vlmax_mul_mlen hv,
    s.vlmax_eq_vlen_mul_lmul_div_sew, h.vlmax_eq hv⟩

/-- Settles O17, from VLMAX <= VLEN <= 2^31 and XLEN >= 32. -/
theorem vectorLengthBounded : Obligations.VectorLengthBounded := by
  intro s h hv
  exact ⟨h.vlmax_le, (h.vlLe hv).trans h.vlmax_le, s.vlmax_le_vlen,
    fun _ hi => toNat_ofNat_xlen_and_msb s.cfg (hi.trans_le h.vlmax_le)⟩

/-! ## Outcomes of one instruction (R14) -/

/-- Settles O37: of the three things an instruction can do, raising the exception is a fault under the terminal
TrapModel. -/
theorem instructionOutcomes : Obligations.InstructionOutcomes := by
  intro i s ht
  rcases exec_cases i s with hraise | hrefuse | ⟨_, t, hnext, _⟩
  · exact .inr (.inl (hraise.trans (raiseIllegal_terminal ht _)))
  · exact .inr (.inr hrefuse)
  · exact .inl ⟨t, hnext⟩

/-! ## Element classes (R11) -/

section ElementClasses
variable {s : State} {i : Nat}

theorem State.prestart_eq_true_iff : s.prestart i = true ↔ i < s.vstart.toNat := by simp [State.prestart]

theorem State.body_eq_true_iff : s.body i = true ↔ s.vstart.toNat ≤ i ∧ i < s.vl.toNat := by simp [State.body]

theorem State.tail_eq_true_iff :
    s.tail i = true ↔ s.vl.toNat ≤ i ∧ s.vstart.toNat ≤ i ∧ i < s.vlmax := by simp [State.tail, and_assoc]

/-- The mask splits the body into the active and the inactive elements. -/
theorem State.active_add_inactive (vm : Bool) :
    (s.active vm i).toNat + (s.inactive vm i).toNat = (s.body i).toNat := by
  rw [State.active, State.inactive]
  cases s.body i <;> cases s.maskOn vm i <;> rfl

/-- Prestart, body and tail split the indices below VLMAX: prestart wins below `vstart` (D10), then `vl` decides. -/
theorem State.prestart_add_body_add_tail (hi : i < s.vlmax) :
    (s.prestart i).toNat + (s.body i).toNat + (s.tail i).toNat = 1 := by
  rcases Nat.lt_or_ge i s.vstart.toNat with hp | hp
  · have hb : s.body i = false := by rw [← Bool.not_eq_true, State.body_eq_true_iff]; omega
    have ht : s.tail i = false := by rw [← Bool.not_eq_true, State.tail_eq_true_iff]; omega
    simp [State.prestart_eq_true_iff.2 hp, hb, ht]
  · have hpre : s.prestart i = false := by rw [← Bool.not_eq_true, State.prestart_eq_true_iff]; omega
    rcases Nat.lt_or_ge i s.vl.toNat with hl | hl
    · have ht : s.tail i = false := by rw [← Bool.not_eq_true, State.tail_eq_true_iff]; omega
      simp [hpre, State.body_eq_true_iff.2 ⟨hp, hl⟩, ht]
    · have hb : s.body i = false := by rw [← Bool.not_eq_true, State.body_eq_true_iff]; omega
      simp [hpre, hb, State.tail_eq_true_iff.2 ⟨hl, hp, hi⟩]

end ElementClasses

/-- Settles O18: active and inactive together are the body, and prestart, body and tail are a partition. -/
theorem elementClassesPartition : Obligations.ElementClassesPartition := by
  intro s vm i hi
  rw [Nat.add_assoc (s.prestart i).toNat, State.active_add_inactive]
  exact State.prestart_add_body_add_tail hi

end Sys2Proof.Machine
end

section
/-! PROOFS. The family of 10_state.md: what reset gives (R33), that every step keeps the invariants (R30), what a
completed instruction leaves unchanged (R21, R28, R31), the scalar registers (R20), the `vtype` CSR and `vill` (R26). -/

namespace Sys2Proof.Machine

variable {s t : State}

/-! ## Reset (R33) -/

/-- The bounds of a legal configuration, one by one (R5, R33). -/
theorem Config.legal_iff (c : Config) :
    c.legal = true ↔ 5 ≤ c.vlenLog ∧ c.vlenLog ≤ 31 ∧ 3 ≤ c.elenLog ∧ c.elenLog ≤ c.vlenLog ∧
      c.resetPc % 4 = 0 ∧ c.resetPc < 2 ^ c.xlen := by
  simp [Config.legal, and_assoc]

/-- RESET_PC fits the pc (R33). -/
theorem resetWith_pc_toNat {c : Config} (h : c.legal = true) : (State.resetWith c).pc.toNat = c.resetPc := by
  obtain ⟨_, _, _, _, _, hlt⟩ := (Config.legal_iff c).1 h
  exact Nat.mod_eq_of_lt hlt

theorem resetWith_readX (c : Config) (n : RegNum) : (State.resetWith c).readX n = 0#_ := by
  simp [State.readX, State.resetWith]

theorem resetWith_readV (c : Config) (n : RegNum) : (State.resetWith c).readV n = 0#_ := by
  simp [State.readV, State.resetWith]

/-- Settles O13: SEW = 8 fits every legal ELEN, RESET_PC is aligned, and what is left of the state is zero or empty. -/
theorem resetSatisfiesInvariant : Obligations.ResetSatisfiesInvariant := by
  intro c h
  obtain ⟨_, _, helen, _, halign, _⟩ := (Config.legal_iff c).1 h
  exact {
    config := h
    x0 := by simp [State.resetWith]
    pcAligned := by rw [resetWith_pc_toNat h, halign]
    sewLe := fun _ => show 2 ^ 3 ≤ 2 ^ c.elenLog from Nat.pow_le_pow_right (by decide) helen
    vlLe := fun _ => by simp [State.resetWith]
    memWf := resetWith_mem_wf c
    memInSpace := by simp [State.resetWith] }

/-- Settles O12, from the invariant of the reset state and the pc that fits; the other fields are as `State.resetWith`
gives them. -/
theorem resetIsAdmitted : Obligations.ResetIsAdmitted := by
  refine ⟨by decide, rfl, fun c h => ?_⟩
  exact ⟨⟨resetSatisfiesInvariant c h, resetWith_pc_toNat h⟩, rfl, resetWith_readX c 0, resetWith_pc_toNat h,
    fun n => ⟨resetWith_readX c n, resetWith_readV c n⟩, rfl, rfl, rfl, rfl, rfl, rfl, rfl, rfl, rfl⟩

/-! ## Alignment of the pc (R21, R43) -/

theorem four_dvd_two_pow_xlen (c : Config) : 4 ∣ 2 ^ c.xlen := by
  rcases xlen_cases c with h | h <;> rw [h] <;> decide

/-- The pc after an instruction, as a number (R21). -/
theorem advancePc_pc_toNat (s : State) : s.advancePc.pc.toNat = (s.pc.toNat + 4) % 2 ^ s.cfg.xlen := by
  simp

/-- The wrap at 2^XLEN keeps the pc a multiple of 4. -/
theorem advancePc_pc_aligned (h : s.pc.toNat % 4 = 0) : s.advancePc.pc.toNat % 4 = 0 := by
  rw [advancePc_pc_toNat, Nat.mod_mod_of_dvd _ (four_dvd_two_pow_xlen s.cfg)]
  omega

/-- Clearing the two low bits rounds down to a multiple of 4. -/
theorem toNat_and_not_three {w : Nat} (a : BitVec w) : (a &&& ~~~(3#w)).toNat = a.toNat / 4 * 4 := by
  have hshift : a &&& ~~~(3#w) = (a >>> 2) <<< 2 := by
    apply BitVec.eq_of_getLsbD_eq
    intro i hi
    have h3 : (3#w).getLsbD i = (decide (i < w) && decide (i < 2)) := by
      rw [BitVec.getLsbD_ofNat]
      exact congrArg _ (Nat.testBit_two_pow_sub_one 2 i)
    rw [BitVec.getLsbD_and, BitVec.getLsbD_not, h3]
    by_cases h2 : i < 2
    · simp [hi, h2]
    · simp [hi, h2, Nat.add_sub_of_le (Nat.le_of_not_lt h2)]
  have hlt := a.isLt
  rw [hshift, BitVec.toNat_shiftLeft, BitVec.toNat_ushiftRight, Nat.shiftLeft_eq, Nat.shiftRight_eq_div_pow,
    Nat.mod_eq_of_lt (by omega)]

/-- Where a trap goes, as a number: `mtvec` rounded down to a multiple of 4 (R133; notes/assumptions/19.md). -/
theorem State.trapTarget_toNat (s : State) : s.trapTarget.toNat = s.mtvec.toNat / 4 * 4 :=
  toNat_and_not_three s.mtvec

theorem State.trapTarget_aligned (s : State) : s.trapTarget.toNat % 4 = 0 := by
  rw [s.trapTarget_toNat, Nat.mul_mod_left]

/-! ## The operations keep the invariants (R30)

The invariants speak of no vector register, of no trap register, and neither of `vstart` nor of the mode, so an
operation has to account for `x0` and the pc only. -/

theorem State.Inv.writeMask (h : s.Inv) (vd : RegNum) (f : Nat → Option Bool) : (s.writeMask vd f).Inv := { h with }

theorem State.Inv.writeGroup (h : s.Inv) (vd : RegNum) (g : Nat → Option Nat) : (s.writeGroup vd g).Inv := { h with }

theorem State.Inv.clearVstart (h : s.Inv) : s.clearVstart.Inv := { h with }

/-- Slot 0 is never written (R20). -/
theorem State.Inv.writeX (h : s.Inv) (rd : RegNum) (w : BitVec s.cfg.xlen) : (s.writeX rd w).Inv :=
  { h with
    x0 := by
      by_cases hr : rd = 0
      · simp [hr, h.x0]
      · have : rd.val ≠ 0 := fun e => hr (Fin.ext e)
        simp [hr, this, h.x0] }

theorem State.Inv.advancePc (h : s.Inv) : s.advancePc.Inv :=
  { h with pcAligned := advancePc_pc_aligned h.pcAligned }

theorem State.Inv.enterTrap (h : s.Inv) (inst : Word) (b : Bool) : (s.enterTrap inst b).Inv :=
  { h with pcAligned := s.trapTarget_aligned }

theorem CompletesIn.inv (h : CompletesIn s t) (hs : s.Inv) : t.Inv := by
  cases h with
  | logical vd f => exact (hs.writeMask vd f).clearVstart.advancePc
  | scalar rd w _ => exact (hs.writeX rd w).advancePc
  | first vd f _ => exact (hs.writeMask vd f).advancePc
  | iota vd g _ => exact (hs.writeGroup vd g).advancePc
  | vid vd g => exact (hs.writeGroup vd g).clearVstart.advancePc

/-- A step that answers a next state entered the trap or completed an instruction. -/
theorem step_next (h : step s = .next t) :
    (∃ inst b, s.cfg.trapModel = .machineTrap b ∧ t = s.enterTrap inst b) ∨ CompletesIn s t := by
  rcases step_cases s with ⟨f, _, e⟩ | ⟨w, i, _, _, e⟩ | ⟨w, k, _, _, e⟩ | ⟨w, _, _, e⟩ <;> rw [e] at h
  · cases h
  · rcases exec_cases i s with hraise | ⟨_, hrefuse⟩ | ⟨_, u, hnext, hu⟩
    · exact .inl ⟨_, raiseIllegal_next (hraise.symm.trans h)⟩
    · cases hrefuse.symm.trans h
    · cases hnext.symm.trans h
      exact .inr hu
  · exact .inl ⟨_, raiseIllegal_next h⟩
  · cases h

/-- Settles O14: trap entry and each way to complete are made of operations that keep the invariants. -/
theorem stepKeepsInvariant : Obligations.StepKeepsInvariant := by
  intro s t hs hstep
  rcases step_next hstep with ⟨inst, b, _, rfl⟩ | hc
  · exact hs.enterTrap inst b
  · exact hc.inv hs

/-! ## What a completed instruction leaves unchanged (R21, R28, R31) -/

section Completed
variable (h : CompletesIn s t)
include h

theorem CompletesIn.pc_toNat : t.pc.toNat = (s.pc.toNat + 4) % 2 ^ s.cfg.xlen := by
  cases h <;> exact advancePc_pc_toNat _

theorem CompletesIn.vstart_toNat : t.vstart.toNat = 0 := by
  cases h with
  | logical => rfl
  | scalar _ _ h0 => exact h0
  | first _ _ h0 => exact h0
  | iota _ _ h0 => exact h0
  | vid => rfl

theorem CompletesIn.cfg : t.cfg = s.cfg := by cases h <;> rfl
theorem CompletesIn.mem : t.mem = s.mem := by cases h <;> rfl
theorem CompletesIn.vtype : t.vtype = s.vtype := by cases h <;> rfl
theorem CompletesIn.vl_toNat : t.vl.toNat = s.vl.toNat := by cases h <;> rfl
theorem CompletesIn.priv : t.priv = s.priv := by cases h <;> rfl
theorem CompletesIn.mtvec_toNat : t.mtvec.toNat = s.mtvec.toNat := by cases h <;> rfl
theorem CompletesIn.mepc_toNat : t.mepc.toNat = s.mepc.toNat := by cases h <;> rfl
theorem CompletesIn.mcause_toNat : t.mcause.toNat = s.mcause.toNat := by cases h <;> rfl
theorem CompletesIn.mtval_toNat : t.mtval.toNat = s.mtval.toNat := by cases h <;> rfl

end Completed

/-- `t` follows `s` by an instruction that completed and changed, apart from the pc and `vstart`, at most the registers
outside `keptX` and `keptV`. -/
def CompletesKeeping (s t : State) (keptX keptV : RegNum → Prop) : Prop :=
  t.pc.toNat = (s.pc.toNat + 4) % 2 ^ s.cfg.xlen ∧ t.vstart.toNat = 0 ∧
  (∀ n, keptX n → (t.readX n).toNat = (s.readX n).toNat) ∧
  (∀ n, keptV n → (t.readV n).toNat = (s.readV n).toNat) ∧
  (∀ a, t.mem.read a = s.mem.read a) ∧
  t.cfg = s.cfg ∧ t.vtype = s.vtype ∧ t.vl.toNat = s.vl.toNat ∧ t.priv = s.priv ∧
  t.mtvec.toNat = s.mtvec.toNat ∧ t.mepc.toNat = s.mepc.toNat ∧
  t.mcause.toNat = s.mcause.toNat ∧ t.mtval.toNat = s.mtval.toNat

/-- Only the registers depend on the way an instruction completed. -/
theorem CompletesIn.keeping {keptX keptV : RegNum → Prop} (h : CompletesIn s t)
    (hx : ∀ n, keptX n → (t.readX n).toNat = (s.readX n).toNat)
    (hv : ∀ n, keptV n → (t.readV n).toNat = (s.readV n).toNat) : CompletesKeeping s t keptX keptV :=
  ⟨h.pc_toNat, h.vstart_toNat, hx, hv, fun a => by rw [h.mem], h.cfg, h.vtype, h.vl_toNat, h.priv, h.mtvec_toNat,
    h.mepc_toNat, h.mcause_toNat, h.mtval_toNat⟩

theorem readX_writeX_of_ne (s : State) {rd n : RegNum} (hn : n ≠ rd) (w : BitVec s.cfg.xlen) :
    (s.writeX rd w).readX n = s.readX n := by
  simp [readX_writeX, hn]

theorem readV_writeMask_of_ne (s : State) {vd n : RegNum} (hn : n ≠ vd) (f : Nat → Option Bool) :
    (s.writeMask vd f).readV n = s.readV n := by
  simp [State.writeMask, readV_writeV, hn]

theorem raiseIllegal_ne_next (ht : s.cfg.trapModel = .terminalFault) (inst : Word) :
    raiseIllegal inst s ≠ .next t := by
  simp [raiseIllegal_terminal ht]

section Families
variable (ht : s.cfg.trapModel = .terminalFault)
include ht

theorem maskLogical_keeping {inst : Word} {op : Bool → Bool → Bool} {vd vs2 vs1 : RegNum}
    (h : maskLogical inst op vd vs2 vs1 s = .next t) : CompletesKeeping s t (fun _ => True) (· ≠ vd) := by
  rcases maskLogical_cases inst op vd vs2 vs1 s with ⟨_, e⟩ | ⟨_, e⟩
  · exact absurd (e.symm.trans h) (raiseIllegal_ne_next ht _)
  · cases e.symm.trans h
    exact (CompletesIn.logical _ _).keeping (fun _ _ => rfl)
      (fun _ hn => congrArg BitVec.toNat (readV_writeMask_of_ne s hn _))

theorem maskToScalar_keeping {inst : Word} {rd : RegNum} {w : BitVec s.cfg.xlen}
    (h : maskToScalar inst rd s w = .next t) : CompletesKeeping s t (· ≠ rd) (fun _ => True) := by
  rcases maskToScalar_cases inst rd s w with ⟨_, e⟩ | ⟨_, h0, e⟩
  · exact absurd (e.symm.trans h) (raiseIllegal_ne_next ht _)
  · cases e.symm.trans h
    exact (CompletesIn.scalar _ _ h0).keeping
      (fun _ hn => congrArg BitVec.toNat (readX_writeX_of_ne s hn _)) (fun _ _ => rfl)

theorem setFirst_keeping {inst : Word} {kind : FirstKind} {vd vs2 : RegNum} {vm : Bool}
    (h : setFirst inst kind vd vs2 vm s = .next t) : CompletesKeeping s t (fun _ => True) (· ≠ vd) := by
  rcases setFirst_cases inst kind vd vs2 vm s with ⟨_, e⟩ | ⟨_, h0, e⟩
  · exact absurd (e.symm.trans h) (raiseIllegal_ne_next ht _)
  · cases e.symm.trans h
    exact (CompletesIn.first _ _ h0).keeping (fun _ _ => rfl)
      (fun _ hn => congrArg BitVec.toNat (readV_writeMask_of_ne s hn _))

theorem execViotaM_keeping {vd vs2 : RegNum} {vm : Bool} (h : execViotaM vd vs2 vm s = .next t) :
    CompletesKeeping s t (fun _ => True) (fun n => ¬ (vd.val ≤ n.val ∧ n.val < vd.val + s.lmul)) := by
  rcases execViotaM_cases vd vs2 vm s with ⟨_, e⟩ | ⟨hl, e⟩
  · exact absurd (e.symm.trans h) (raiseIllegal_ne_next ht _)
  · obtain ⟨_, _, h0, _⟩ := (iotaIllegal_eq_false_iff s vd vs2 vm).1 hl
    cases e.symm.trans h
    exact (CompletesIn.iota _ _ h0).keeping (fun _ _ => rfl)
      (fun n hn => congrArg BitVec.toNat (s.writeGroup_getElem_outside vd _ n hn))

theorem execVidV_keeping {vd : RegNum} {vm : Bool} (h : execVidV vd vm s = .next t) :
    CompletesKeeping s t (fun _ => True) (fun n => ¬ (vd.val ≤ n.val ∧ n.val < vd.val + s.lmul)) := by
  rcases execVidV_cases vd vm s with ⟨_, e⟩ | ⟨_, _, _, _, e⟩ | ⟨_, _, _, e⟩
  · exact absurd (e.symm.trans h) (raiseIllegal_ne_next ht _)
  · cases e.symm.trans h
  · cases e.symm.trans h
    exact (CompletesIn.vid _ _).keeping (fun _ _ => rfl)
      (fun n hn => congrArg BitVec.toNat (s.writeGroup_getElem_outside vd _ n hn))

end Families

/-- Settles O39: every instruction is one of the five families, and each family's frame names its destination. -/
theorem completedInstructionFrame : Obligations.CompletedInstructionFrame := by
  intro i s t ht h
  cases i with
  | vmandnotMm | vmandMm | vmorMm | vmxorMm | vmornotMm | vmnandMm | vmnorMm | vmxnorMm =>
    exact maskLogical_keeping ht h
  | vpopcM | vfirstM => exact maskToScalar_keeping ht h
  | vmsbfM | vmsofM | vmsifM => exact setFirst_keeping ht h
  | viotaM => exact execViotaM_keeping ht h
  | vidV => exact execVidV_keeping ht h

/-! ## Scalar registers (R20) -/

theorem writeX_zero (s : State) (w : BitVec s.cfg.xlen) : s.writeX 0 w = s := by simp [State.writeX]

/-- Settles O15, from reading a register after a write. -/
theorem scalarRegistersReadBack : Obligations.ScalarRegistersReadBack := by
  refine fun s w => ⟨rfl, writeX_zero s w, fun i j hi => ?_⟩
  rw [readX_writeX]
  by_cases hj : j = i <;> simp [hi, hj]

/-! ## The `vtype` CSR and `vill` (R26) -/

/-- Bit `k` of the `vtype` CSR: `vlmul` below bit 2, then `vsew`, and `vill` from the highest bit up (R26). -/
theorem getLsbD_csrValue_vtype (s : State) {k : Nat} (hk : k < s.cfg.xlen) :
    (s.csrValue .vtype).getLsbD k =
      if k < s.cfg.xlen - 1 then
        if k < 2 then s.vtype.vlmul.val.testBit k else (s.vtype.vsew % 8).testBit (k - 2)
      else s.vtype.vill.toNat.testBit (k - (s.cfg.xlen - 1)) := by
  have hlow : 2 ^ 2 * (s.vtype.vsew % 8) + s.vtype.vlmul.val < 2 ^ (s.cfg.xlen - 1) :=
    calc 2 ^ 2 * (s.vtype.vsew % 8) + s.vtype.vlmul.val < 2 ^ 5 := by omega
      _ ≤ 2 ^ (s.cfg.xlen - 1) := Nat.pow_le_pow_right (by decide) (by have := xlen_cases s.cfg; omega)
  have hvalue : s.vtype.vlmul.val + 4 * (s.vtype.vsew % 8) + s.vtype.vill.toNat * 2 ^ (s.cfg.xlen - 1) =
      2 ^ (s.cfg.xlen - 1) * s.vtype.vill.toNat + (2 ^ 2 * (s.vtype.vsew % 8) + s.vtype.vlmul.val) := by ring
  rw [State.csrValue, BitVec.getLsbD_ofNat, decide_eq_true hk, Bool.true_and, hvalue,
    Nat.testBit_two_pow_mul_add _ hlow, Nat.testBit_two_pow_mul_add _ s.vtype.vlmul.isLt]

/-- A three-bit SEW exponent has no bit from 3 up. -/
theorem testBit_vsew_mod (n : Nat) {k : Nat} (hk : 3 ≤ k) : (n % 8).testBit k = false :=
  Nat.testBit_lt_two_pow <|
    calc n % 8 < 2 ^ 3 := Nat.mod_lt n (by decide)
      _ ≤ 2 ^ k := Nat.pow_le_pow_right (by decide) hk

/-- Settles O19, field by field from the bits of the CSR. -/
theorem vtypeCsrLayout : Obligations.VtypeCsrLayout := by
  intro s hsew
  have hx : 32 ≤ s.cfg.xlen := by have := xlen_cases s.cfg; omega
  refine ⟨?vlmul, ?vsew, ?vill, fun k h5 hk => ?zeros⟩
  case vlmul =>
    apply BitVec.eq_of_getLsbD_eq
    intro i hi
    rw [BitVec.getLsbD_extractLsb', getLsbD_csrValue_vtype s (by omega), if_pos (by omega), if_pos (by omega),
      BitVec.getLsbD_ofNat, Nat.zero_add]
  case vsew =>
    apply BitVec.eq_of_getLsbD_eq
    intro i hi
    rw [BitVec.getLsbD_extractLsb', getLsbD_csrValue_vtype s (by omega), if_pos (by omega), if_neg (by omega),
      BitVec.getLsbD_ofNat, Nat.add_sub_cancel_left, Nat.mod_eq_of_lt hsew]
  case vill =>
    rw [BitVec.msb_eq_getLsbD_last, getLsbD_csrValue_vtype s (by omega), if_neg (by omega), Nat.sub_self]
    cases s.vtype.vill <;> rfl
  case zeros =>
    rw [getLsbD_csrValue_vtype s (by omega), if_pos hk, if_neg (by omega), testBit_vsew_mod _ (by omega)]

/-- Settles O35: an instruction completes only with `vill` clear, and `vid.v` checks `vill` before it refuses. -/
theorem villAlwaysRaises : Obligations.VillAlwaysRaises := by
  intro i s hv
  rcases exec_cases i s with hraise | ⟨rfl, _⟩ | ⟨hclear, _⟩
  · exact hraise
  · rcases execVidV_cases 0 false s with ⟨_, e⟩ | ⟨hclear, _⟩ | ⟨hclear, _⟩
    · exact e
    · simp [hv] at hclear
    · simp [hv] at hclear
  · simp [hv] at hclear

end Sys2Proof.Machine
end

section
/-! PROOFS. The family of 20_memory.md: the fetch and what the step makes of the fetched word (R42, R60), and the memory,
which no instruction touches (R41, R46). -/

namespace Sys2Proof

/-! ## The word of an instruction and its bytes (R42, R60) -/

/-- R54: with `vm` = 1 and a `funct6` that starts with 011, the word is a mask-logical instruction. -/
theorem decode_opMvvWord_logical {f6 : BitVec 6} (h : f6.extractLsb' 3 3 = 0b011#3) (vs2 vs1 vd : RegNum) :
    decode (opMvvWord f6 true vs2 (BitVec.ofFin vs1) vd) = .instr (maskLogicalInstr f6 vd vs2 vs1) := by
  simp [decode, h]

/-- The decoder undoes the encoder: by `funct6` for the mask-logical instructions, by `funct6` and the sub-operation
code for the others. -/
theorem decode_encode (i : Instr) : decode (encode i) = .instr i := by
  cases i with
  | vmandnotMm vd vs2 vs1 | vmandMm vd vs2 vs1 | vmorMm vd vs2 vs1 | vmxorMm vd vs2 vs1 | vmornotMm vd vs2 vs1
  | vmnandMm vd vs2 vs1 | vmnorMm vd vs2 vs1 | vmxnorMm vd vs2 vs1 =>
    exact decode_opMvvWord_logical (by decide) vs2 vs1 vd
  | vpopcM | vfirstM | vmsbfM | vmsofM | vmsifM | viotaM | vidV => simp [encode, decode]

/-- Byte `k` of a word is the byte it was built from (R42). -/
theorem extractLsb'_wordOfBytes (b : Fin 4 → Byte) (k : Fin 4) :
    (wordOfBytes (b 0) (b 1) (b 2) (b 3)).extractLsb' (8 * k.val) 8 = b k := by
  apply BitVec.eq_of_getLsbD_eq
  intro i hi
  rw [BitVec.getLsbD_extractLsb', getLsbD_wordOfBytes _ _ _ _ _ (by omega)]
  fin_cases k
  · simp [hi]
  · simp [hi, show 8 + i < 16 by omega]
  · simp [hi, show ¬ 16 + i < 8 by omega, show 16 + i < 24 by omega]
  · simp [hi, show ¬ 24 + i < 8 by omega, show ¬ 24 + i < 16 by omega]

end Sys2Proof

namespace Sys2Proof.Machine

variable {s t : State}

/-! ## The step runs what the fetch reads (R42, R60) -/

theorem step_of_fetch {w : Word} {i : Instr} (hf : s.fetch = .ok w) (hd : decode w = .instr i) :
    step s = exec i s := by
  simp [step, hf, hd]

theorem readBytes_four {m : Memory} {a : Nat} {b : Fin 4 → Byte} (h : ∀ k : Fin 4, m.read (a + k.val) = some (b k)) :
    m.readBytes a 4 = some [b 0, b 1, b 2, b 3] := by
  rw [Memory.readBytes_eq_some_iff]
  refine ⟨rfl, fun k hk => (h ⟨k, hk⟩).trans ?_⟩
  interval_cases k <;> rfl

/-- The word of an instruction, placed at the pc, is the word the fetch reads. -/
theorem fetch_withFetchWord_encode (ha : s.pc.toNat % 4 = 0) (i : Instr) :
    (s.withFetchWord 32 (encode i).toNat).fetch = .ok (encode i) := by
  rw [fetch_withFetchWord ha, Nat.mod_eq_of_lt (encode i).isLt, BitVec.ofNat_toNat, BitVec.setWidth_eq]

/-- Settles O8: the fetch reads the four bytes as one word. -/
theorem stepRunsDecodedInstruction : Obligations.StepRunsDecodedInstruction := by
  intro s b0 b1 b2 b3 i ha hb hd
  exact step_of_fetch (fetch_of_readBytes ha hb) hd

/-- Settles O9: the four bytes are read, and the word gives each of them back. -/
theorem fetchIsLittleEndian : Obligations.FetchIsLittleEndian := by
  intro s b ha hb
  exact ⟨_, fetch_of_readBytes ha (readBytes_four hb), extractLsb'_wordOfBytes b⟩

/-- Settles O10: the fetch reads the placed word, which decodes to the instruction. -/
theorem placedInstructionRunsNext : Obligations.PlacedInstructionRunsNext := by
  intro s i ha
  exact step_of_fetch (fetch_withFetchWord_encode ha i) (decode_encode i)

/-! ## No step changes the text or the setting (R26, R27, R46) -/

/-- Settles O11: neither trap entry nor a completed instruction writes the text, the configuration, `vtype` or `vl`. -/
theorem stepKeepsTextAndSetting : Obligations.StepKeepsTextAndSetting := by
  intro s t h
  rcases step_next h with ⟨inst, b, _, rfl⟩ | hc
  · exact ⟨fun _ => rfl, rfl, rfl, rfl⟩
  · exact ⟨fun a => by rw [hc.mem], hc.cfg, hc.vtype, hc.vl_toNat⟩

/-! ## No instruction reads or writes memory (R41) -/

/-- The state with another memory. -/
def State.withMem (s : State) (m : Memory) : State := { s with mem := m }

/-- The outcome with another memory in its next state, if it has one. -/
def outcomeWithMem (m : Memory) : Host.Outcome State Fault Refusal → Host.Outcome State Fault Refusal
  | .next t => .next (t.withMem m)
  | .fault f => .fault f
  | .refused r => .refused r

/-- Under the trap-entering TrapModel the exception gives the state in the handler (R133). -/
theorem raiseIllegal_machineTrap {b : Bool} (h : s.cfg.trapModel = .machineTrap b) (inst : Word) :
    raiseIllegal inst s = .next (s.enterTrap inst b) := by
  simp [raiseIllegal, h]

section WithMem
variable {m : Memory}

theorem raiseIllegal_withMem (inst : Word) :
    raiseIllegal inst (s.withMem m) = outcomeWithMem m (raiseIllegal inst s) := by
  rcases raiseIllegal_cases inst s with ⟨ht, e⟩ | ⟨b, ht, e⟩ <;> rw [e]
  · exact raiseIllegal_terminal (s := s.withMem m) ht inst
  · exact raiseIllegal_machineTrap (s := s.withMem m) ht inst

/-- An instruction whose check and whose outcome past the check do not look at memory. -/
theorem exec_withMem_of_check {i : Instr} (raises : Bool) {o : Host.Outcome State Fault Refusal}
    (h : exec i s = if raises then raiseIllegal (encode i) s else o)
    (hm : exec i (s.withMem m) = if raises then raiseIllegal (encode i) (s.withMem m) else outcomeWithMem m o) :
    exec i (s.withMem m) = outcomeWithMem m (exec i s) := by
  rw [h, hm]
  cases raises
  · rfl
  · exact raiseIllegal_withMem (encode i)

/-- Another memory changes nothing about an instruction but the memory of its next state. -/
theorem exec_withMem (i : Instr) : exec i (s.withMem m) = outcomeWithMem m (exec i s) := by
  cases i with
  | vmandnotMm | vmandMm | vmorMm | vmxorMm | vmornotMm | vmnandMm | vmnorMm | vmxnorMm =>
    exact exec_withMem_of_check s.vtype.vill rfl rfl
  | vpopcM | vfirstM | vmsbfM | vmsofM | vmsifM =>
    exact exec_withMem_of_check (s.vtype.vill || s.vstartNonzero) rfl rfl
  | viotaM vd vs2 vm => exact exec_withMem_of_check (s.iotaIllegal vd vs2 vm) rfl rfl
  | vidV vd vm =>
    exact exec_withMem_of_check (s.vtype.vill || s.groupMisaligned vd) rfl
      (by rw [apply_ite (outcomeWithMem m)]; rfl)

end WithMem

/-- An instruction that answers a next state entered the trap or completed; either way the memory is the old one. -/
theorem exec_next_mem {i : Instr} (h : exec i s = .next t) : t.mem = s.mem := by
  rcases exec_cases i s with hraise | ⟨_, hrefuse⟩ | ⟨_, u, hnext, hu⟩
  · obtain ⟨b, _, rfl⟩ := raiseIllegal_next (hraise.symm.trans h)
    rfl
  · cases hrefuse.symm.trans h
  · cases hnext.symm.trans h
    exact hu.mem

/-- The only fault of an instruction is the exception: it makes no access that could fault. -/
theorem exec_fault {i : Instr} {f : Fault} (h : exec i s = .fault f) :
    f = .illegalInstruction s.pc.toNat (encode i) := by
  rcases exec_cases i s with hraise | ⟨_, hrefuse⟩ | ⟨_, u, hnext, _⟩
  · rcases raiseIllegal_cases (encode i) s with ⟨_, e⟩ | ⟨_, _, e⟩
    · cases (hraise.trans e).symm.trans h
      rfl
    · cases (hraise.trans e).symm.trans h
  · cases hrefuse.symm.trans h
  · cases hnext.symm.trans h

/-- Settles O40: the outcome does not look at memory, and what is left is the memory of a next state and the kind of a
fault. -/
theorem instructionsIgnoreMemory : Obligations.InstructionsIgnoreMemory := by
  intro i s m
  have hm : exec i { s with mem := m } = outcomeWithMem m (exec i s) := exec_withMem i
  cases h : exec i s <;> rw [h] at hm
  case next t => exact ⟨hm, fun a => by rw [exec_next_mem h]⟩
  case fault f => exact ⟨hm, _, _, exec_fault h⟩
  case refused r => exact hm

end Sys2Proof.Machine
end

section
/-! PROOFS. The family of 30_encoding.md: decoder and encoder are inverse (R60), what the mask and match values of the
opcode table decide (R54 to R56), the reserved words (R57, R58), the words of no rule (R59), and the assembler lines
(R61, R62). -/

namespace Sys2Proof

/-! ## Words of the OPMVV format (R51) -/

/-- The fields of an OPMVV word can be read back, so they determine it. -/
theorem opMvvWord_inj {f6 f6' : BitVec 6} {vm vm' : Bool} {s2 s2' : RegNum} {s1 s1' : BitVec 5} {d d' : RegNum} :
    opMvvWord f6 vm s2 s1 d = opMvvWord f6' vm' s2' s1' d' ↔
      f6 = f6' ∧ vm = vm' ∧ s2 = s2' ∧ s1 = s1' ∧ d = d' := by
  refine ⟨fun h => ⟨?_, ?_, ?_, ?_, ?_⟩, by rintro ⟨rfl, rfl, rfl, rfl, rfl⟩; rfl⟩
  · simpa only [opMvvWord_funct6] using congrArg Word.funct6 h
  · simpa only [opMvvWord_vm] using congrArg Word.vm h
  · simpa only [opMvvWord_vs2] using congrArg Word.vs2 h
  · simpa only [opMvvWord_vs1] using congrArg Word.vs1 h
  · simpa only [opMvvWord_rd] using congrArg Word.rd h

/-- A word that agrees with an OPMVV word under a mask covering `opcode` and `funct3` is an OPMVV word itself. -/
theorem exists_opMvvWord_of_and_eq {w m : Word} {g6 : BitVec 6} {um : Bool} {t2 : RegNum} {t1 : BitVec 5} {e : RegNum}
    (hmo : m.opcode = BitVec.allOnes 7) (hm3 : m.funct3 = BitVec.allOnes 3)
    (h : w &&& m = opMvvWord g6 um t2 t1 e) : ∃ f6 vm s2 s1 d, w = opMvvWord f6 vm s2 s1 d := by
  have hop : w.opcode = opV :=
    calc w.opcode = w.opcode &&& m.opcode := by rw [hmo, BitVec.and_allOnes]
      _ = (w &&& m).opcode := BitVec.extractLsb'_and.symm
      _ = opV := by rw [h, opMvvWord_opcode]
  have h3 : w.funct3 = opMvv :=
    calc w.funct3 = w.funct3 &&& m.funct3 := by rw [hm3, BitVec.and_allOnes]
      _ = (w &&& m).funct3 := BitVec.extractLsb'_and.symm
      _ = opMvv := by rw [h, opMvvWord_funct3]
  exact ⟨_, _, _, _, _, (opMvvWord_fields w hop h3).symm⟩

/-- Masking a word with E200707F leaves `vm` and the three high bits of `funct6`. -/
theorem and_mask_reserved (f6 : BitVec 6) (vm : Bool) (s2 : RegNum) (s1 : BitVec 5) (d : RegNum) :
    opMvvWord f6 vm s2 s1 d &&& 0xE200707F#32 = opMvvWord (f6 &&& 0b111000#6) vm 0 0 0 := by
  apply BitVec.eq_of_getLsbD_eq
  intro i hi
  rw [BitVec.getLsbD_and, getLsbD_opMvvWord _ _ _ _ _ _ hi, getLsbD_opMvvWord _ _ _ _ _ _ hi]
  interval_cases i <;> simp

/-- The words of a mask-logical row (R54): `funct6` and `vm` are fixed. -/
theorem and_mask_logical_eq_iff (w : Word) (f6 : BitVec 6) :
    w &&& 0xFE00707F#32 = opMvvWord f6 true 0 0 0 ↔
      ∃ vd vs2 vs1 : RegNum, w = opMvvWord f6 true vs2 (BitVec.ofFin vs1) vd := by
  constructor
  · intro h
    obtain ⟨g6, vm, s2, s1, d, rfl⟩ := exists_opMvvWord_of_and_eq (by decide) (by decide) h
    rw [Laws.and_mask_logical, opMvvWord_inj] at h
    obtain ⟨rfl, rfl, _⟩ := h
    exact ⟨d, s2, s1.toFin, rfl⟩
  · rintro ⟨vd, vs2, vs1, rfl⟩
    exact Laws.and_mask_logical _ _ _ _ _

/-- The words of a row with a sub-operation code (R55, R56): `funct6` and the code are fixed. -/
theorem and_mask_unary_eq_iff (w : Word) (f6 : BitVec 6) (s1 : BitVec 5) :
    w &&& 0xFC0FF07F#32 = opMvvWord f6 false 0 s1 0 ↔
      ∃ (rd vs2 : RegNum) (vm : Bool), w = opMvvWord f6 vm vs2 s1 rd := by
  constructor
  · intro h
    obtain ⟨g6, vm, s2, t1, d, rfl⟩ := exists_opMvvWord_of_and_eq (by decide) (by decide) h
    rw [Laws.and_mask_unary, opMvvWord_inj] at h
    obtain ⟨rfl, _, _, rfl, _⟩ := h
    exact ⟨d, s2, vm, rfl⟩
  · rintro ⟨rd, vs2, vm, rfl⟩
    exact Laws.and_mask_unary _ _ _ _ _

/-- The words of the row of `vid.v` (R56): besides, the `vs2` field is 0. -/
theorem and_mask_vid_eq_iff (w : Word) (f6 : BitVec 6) (s1 : BitVec 5) :
    w &&& 0xFDFFF07F#32 = opMvvWord f6 false 0 s1 0 ↔ ∃ (vd : RegNum) (vm : Bool), w = opMvvWord f6 vm 0 s1 vd := by
  constructor
  · intro h
    obtain ⟨g6, vm, s2, t1, d, rfl⟩ := exists_opMvvWord_of_and_eq (by decide) (by decide) h
    rw [Laws.and_mask_vid, opMvvWord_inj] at h
    obtain ⟨rfl, _, rfl, rfl, _⟩ := h
    exact ⟨d, vm, rfl⟩
  · rintro ⟨vd, vm, rfl⟩
    exact Laws.and_mask_vid _ _ _ _ _

/-- The match word of `vid.v` from its fields (R56). -/
theorem vid_fixed_eq : 0x5008A057#32 = opMvvWord 0b010100#6 false 0 0b10001#5 0 := by decide

theorem ofFin_ne_zero_iff (r : RegNum) : BitVec.ofFin (w := 5) r ≠ 0#5 ↔ r ≠ 0 :=
  not_congr (BitVec.toFin_inj (y := 0#5)).symm

/-- Two ways to say that a `funct6` value is one of 011000 to 011111 (R54). -/
theorem and_high_bits_eq_iff : ∀ f6 : BitVec 6, f6 &&& 0b111000#6 = 0b011000#6 ↔ f6.extractLsb' 3 3 = 0b011#3 := by
  decide

/-- The mask-logical patterns with bit 25 clear (R58). -/
theorem and_mask_reserved_eq_iff (w : Word) :
    w &&& 0xE200707F#32 = 0x60002057#32 ↔
      ∃ (f6 : BitVec 6) (s2 : RegNum) (s1 : BitVec 5) (d : RegNum),
        f6.extractLsb' 3 3 = 0b011#3 ∧ w = opMvvWord f6 false s2 s1 d := by
  have hfixed : 0x60002057#32 = opMvvWord 0b011000#6 false 0 0 0 := by decide
  rw [hfixed]
  constructor
  · intro h
    obtain ⟨f6, vm, s2, s1, d, rfl⟩ := exists_opMvvWord_of_and_eq (by decide) (by decide) h
    rw [and_mask_reserved, opMvvWord_inj] at h
    obtain ⟨h6, rfl, _⟩ := h
    exact ⟨f6, s2, s1, d, (and_high_bits_eq_iff f6).1 h6, rfl⟩
  · rintro ⟨f6, s2, s1, d, h6, rfl⟩
    rw [and_mask_reserved, (and_high_bits_eq_iff f6).2 h6]

/-! ## The decoder and the encoder (R60) -/

/-- The eight `funct6` values of the mask-logical instructions (R54). -/
theorem funct6_logical_cases : ∀ f6 : BitVec 6, f6.extractLsb' 3 3 = 0b011#3 →
    f6 = 0b011000#6 ∨ f6 = 0b011001#6 ∨ f6 = 0b011010#6 ∨ f6 = 0b011011#6 ∨
    f6 = 0b011100#6 ∨ f6 = 0b011101#6 ∨ f6 = 0b011110#6 ∨ f6 = 0b011111#6 := by
  decide

theorem encode_maskLogicalInstr {f6 : BitVec 6} (h : f6.extractLsb' 3 3 = 0b011#3) (vd vs2 vs1 : RegNum) :
    encode (maskLogicalInstr f6 vd vs2 vs1) = opMvvWord f6 true vs2 (BitVec.ofFin vs1) vd := by
  rcases funct6_logical_cases f6 h with rfl | rfl | rfl | rfl | rfl | rfl | rfl | rfl <;> rfl

/-- The words of the two reserved sets (R57, R58). -/
inductive ReservedWord : ReservedKind → Word → Prop
  | vid (vm : Bool) (vs2 rd : RegNum) (h : vs2 ≠ 0) :
      ReservedWord .vidVs2NotZero (opMvvWord 0b010100#6 vm vs2 0b10001#5 rd)
  | maskLogical (f6 : BitVec 6) (vs2 : RegNum) (vs1 : BitVec 5) (rd : RegNum) (h : f6.extractLsb' 3 3 = 0b011#3) :
      ReservedWord .maskLogicalMasked (opMvvWord f6 false vs2 vs1 rd)

theorem ReservedWord.decode_eq {k : ReservedKind} {w : Word} (h : ReservedWord k w) : decode w = .reserved k := by
  cases h with
  | vid vm vs2 rd h => simp [decode, h]
  | maskLogical f6 vs2 vs1 rd h => simp [decode, h]

/-- What a decoder's answer says about the word it was given; "not in this spec" by itself says nothing. -/
def Decoded.Describes (w : Word) : Decoded → Prop
  | .instr i => encode i = w
  | .reserved k => ReservedWord k w
  | .notInSpec => True

/-- On an OPMVV word the answer is right in each branch of R60. -/
theorem decode_opMvvWord_describes (f6 : BitVec 6) (vm : Bool) (s2 : RegNum) (s1 : BitVec 5) (d : RegNum) :
    (decode (opMvvWord f6 vm s2 s1 d)).Describes (opMvvWord f6 vm s2 s1 d) := by
  simp only [decode, opMvvWord_opcode, opMvvWord_funct3, opMvvWord_funct6, opMvvWord_vm, opMvvWord_vs1, opMvvWord_vs2,
    opMvvWord_rd, ne_eq, not_true_eq_false, or_self, if_false]
  split
  case isTrue hlogical =>
    cases vm with
    | true => exact encode_maskLogicalInstr hlogical d s2 s1.toFin
    | false => exact .maskLogical f6 s2 s1 d hlogical
  case isFalse =>
    split_ifs with h6 hpopc hfirst h6 hsbf hsof hsif hiota hid hvs2
    · subst h6 hpopc; rfl
    · subst h6 hfirst; rfl
    · trivial
    · subst h6 hsbf; rfl
    · subst h6 hsof; rfl
    · subst h6 hsif; rfl
    · subst h6 hiota; rfl
    · subst h6 hid hvs2; rfl
    · subst h6 hid; exact .vid vm s2 d hvs2
    · trivial
    · trivial

/-- The decoder's answer is right on every word. -/
theorem decode_describes (w : Word) : (decode w).Describes w := by
  by_cases h : w.opcode = opV ∧ w.funct3 = opMvv
  · obtain ⟨hop, h3⟩ := h
    rw [← opMvvWord_fields w hop h3]
    exact decode_opMvvWord_describes _ _ _ _ _
  · have hn : decode w = .notInSpec := if_pos (not_and_or.1 h)
    rw [hn]
    trivial

theorem decode_eq_instr_iff {w : Word} {i : Instr} : decode w = .instr i ↔ encode i = w := by
  constructor
  · intro h
    have hd := decode_describes w
    rwa [h] at hd
  · rintro rfl
    exact decode_encode i

theorem decode_eq_reserved_iff {w : Word} {k : ReservedKind} : decode w = .reserved k ↔ ReservedWord k w := by
  constructor
  · intro h
    have hd := decode_describes w
    rwa [h] at hd
  · exact ReservedWord.decode_eq

/-! ## The opcode table (R54 to R56) -/

/-- Every instruction's word matches the instruction's row. -/
theorem covers_encode (i : Instr) : i.row.covers (encode i) = true := by
  cases i with
  | vmandnotMm => exact Laws.EncodeMatchesRow.vmandnotMm _ _ _
  | vmandMm => exact Laws.EncodeMatchesRow.vmandMm _ _ _
  | vmorMm => exact Laws.EncodeMatchesRow.vmorMm _ _ _
  | vmxorMm => exact Laws.EncodeMatchesRow.vmxorMm _ _ _
  | vmornotMm => exact Laws.EncodeMatchesRow.vmornotMm _ _ _
  | vmnandMm => exact Laws.EncodeMatchesRow.vmnandMm _ _ _
  | vmnorMm => exact Laws.EncodeMatchesRow.vmnorMm _ _ _
  | vmxnorMm => exact Laws.EncodeMatchesRow.vmxnorMm _ _ _
  | vpopcM => exact Laws.EncodeMatchesRow.vpopcM _ _ _
  | vfirstM => exact Laws.EncodeMatchesRow.vfirstM _ _ _
  | vmsbfM => exact Laws.EncodeMatchesRow.vmsbfM _ _ _
  | vmsofM => exact Laws.EncodeMatchesRow.vmsofM _ _ _
  | vmsifM => exact Laws.EncodeMatchesRow.vmsifM _ _ _
  | viotaM => exact Laws.EncodeMatchesRow.viotaM _ _ _
  | vidV => exact Laws.EncodeMatchesRow.vidV _ _

theorem OpcodeRow.covers_iff {r : OpcodeRow} {w : Word} : r.covers w = true ↔ w &&& r.mask = r.fixed := by
  simp [OpcodeRow.covers]

/-- A word that a mask-logical row covers is the word of an instruction of the constructor `c`. -/
theorem exists_encode_of_covers_logical {r : OpcodeRow} {w : Word} {f6 : BitVec 6}
    (c : RegNum → RegNum → RegNum → Instr)
    (hr : ∀ a b d, (c a b d).row = r) (hc : ∀ a b d, encode (c a b d) = opMvvWord f6 true b (BitVec.ofFin d) a)
    (hm : r.mask = 0xFE00707F#32) (hf : r.fixed = opMvvWord f6 true 0 0 0) (h : r.covers w = true) :
    ∃ i, encode i = w ∧ i.row = r := by
  rw [OpcodeRow.covers_iff, hm, hf, and_mask_logical_eq_iff] at h
  obtain ⟨vd, vs2, vs1, rfl⟩ := h
  exact ⟨c vd vs2 vs1, hc vd vs2 vs1, hr vd vs2 vs1⟩

/-- The same for a row whose instructions have a sub-operation code. -/
theorem exists_encode_of_covers_unary {r : OpcodeRow} {w : Word} {f6 : BitVec 6} {s1 : BitVec 5}
    (c : RegNum → RegNum → Bool → Instr)
    (hr : ∀ a b vm, (c a b vm).row = r) (hc : ∀ a b vm, encode (c a b vm) = opMvvWord f6 vm b s1 a)
    (hm : r.mask = 0xFC0FF07F#32) (hf : r.fixed = opMvvWord f6 false 0 s1 0) (h : r.covers w = true) :
    ∃ i, encode i = w ∧ i.row = r := by
  rw [OpcodeRow.covers_iff, hm, hf, and_mask_unary_eq_iff] at h
  obtain ⟨rd, vs2, vm, rfl⟩ := h
  exact ⟨c rd vs2 vm, hc rd vs2 vm, hr rd vs2 vm⟩

/-- A row covers no other words than those of its instructions: it fixes every field they do not take from an
operand. -/
theorem exists_encode_of_covers {w : Word} (j : Instr) (h : j.row.covers w = true) :
    ∃ i, encode i = w ∧ i.row = j.row := by
  cases j with
  | vmandnotMm => exact exists_encode_of_covers_logical .vmandnotMm (fun _ _ _ => rfl) (fun _ _ _ => rfl) rfl rfl h
  | vmandMm => exact exists_encode_of_covers_logical .vmandMm (fun _ _ _ => rfl) (fun _ _ _ => rfl) rfl rfl h
  | vmorMm => exact exists_encode_of_covers_logical .vmorMm (fun _ _ _ => rfl) (fun _ _ _ => rfl) rfl rfl h
  | vmxorMm => exact exists_encode_of_covers_logical .vmxorMm (fun _ _ _ => rfl) (fun _ _ _ => rfl) rfl rfl h
  | vmornotMm => exact exists_encode_of_covers_logical .vmornotMm (fun _ _ _ => rfl) (fun _ _ _ => rfl) rfl rfl h
  | vmnandMm => exact exists_encode_of_covers_logical .vmnandMm (fun _ _ _ => rfl) (fun _ _ _ => rfl) rfl rfl h
  | vmnorMm => exact exists_encode_of_covers_logical .vmnorMm (fun _ _ _ => rfl) (fun _ _ _ => rfl) rfl rfl h
  | vmxnorMm => exact exists_encode_of_covers_logical .vmxnorMm (fun _ _ _ => rfl) (fun _ _ _ => rfl) rfl rfl h
  | vpopcM => exact exists_encode_of_covers_unary .vpopcM (fun _ _ _ => rfl) (fun _ _ _ => rfl) rfl rfl h
  | vfirstM => exact exists_encode_of_covers_unary .vfirstM (fun _ _ _ => rfl) (fun _ _ _ => rfl) rfl rfl h
  | vmsbfM => exact exists_encode_of_covers_unary .vmsbfM (fun _ _ _ => rfl) (fun _ _ _ => rfl) rfl rfl h
  | vmsofM => exact exists_encode_of_covers_unary .vmsofM (fun _ _ _ => rfl) (fun _ _ _ => rfl) rfl rfl h
  | vmsifM => exact exists_encode_of_covers_unary .vmsifM (fun _ _ _ => rfl) (fun _ _ _ => rfl) rfl rfl h
  | viotaM => exact exists_encode_of_covers_unary .viotaM (fun _ _ _ => rfl) (fun _ _ _ => rfl) rfl rfl h
  | vidV vd vm =>
    rw [OpcodeRow.covers_iff, Instr.row, vid_fixed_eq, and_mask_vid_eq_iff] at h
    obtain ⟨vd', vm', rfl⟩ := h
    exact ⟨.vidV vd' vm', rfl, rfl⟩

/-- Which words a row covers. -/
theorem covers_iff_exists_decode {w : Word} {j : Instr} :
    j.row.covers w = true ↔ ∃ i, decode w = .instr i ∧ i.row = j.row := by
  simp only [decode_eq_instr_iff]
  constructor
  · exact exists_encode_of_covers j
  · rintro ⟨i, rfl, hrow⟩
    rw [← hrow]
    exact covers_encode i

/-- Settles O1: the fields of the word select the branch of R60 that gives the instruction back. -/
theorem decodeOfEncode : Obligations.DecodeOfEncode := decode_encode

/-- Settles O2: the branch of R60 that answers an instruction fixes the fields that are not its operands. -/
theorem encodeOfDecode : Obligations.EncodeOfDecode := fun _ _ => decode_eq_instr_iff.1

/-- Settles O3, from the words each mask and match value admit. -/
theorem rowMatchDecidesInstruction : Obligations.RowMatchDecidesInstruction := fun _ _ => covers_iff_exists_decode

/-- Settles O6: each word is the one the encoder gives. -/
theorem workedWordsDecode : Obligations.WorkedWordsDecode := by
  refine ⟨?_, ?_, ?_, ?_, ?_, ?_, ?_, ?_, ?_⟩ <;> exact decode_eq_instr_iff.2 (by decide)

/-! ## The words that are no instruction (R57, R58, R59) -/

/-- The `vid.v` pattern with a `vs2` field that is not 0 (R57). -/
theorem reservedWord_vid_iff {w : Word} :
    ReservedWord .vidVs2NotZero w ↔ w &&& 0xFC0FF07F#32 = 0x5008A057#32 ∧ w.extractLsb' 20 5 ≠ 0#5 := by
  rw [vid_fixed_eq, and_mask_unary_eq_iff]
  constructor
  · rintro ⟨vm, vs2, rd, h⟩
    rw [opMvvWord_vs2Field, ofFin_ne_zero_iff]
    exact ⟨⟨rd, vs2, vm, rfl⟩, h⟩
  · rintro ⟨⟨rd, vs2, vm, rfl⟩, h⟩
    rw [opMvvWord_vs2Field, ofFin_ne_zero_iff] at h
    exact .vid vm vs2 rd h

/-- A mask-logical pattern with bit 25 clear (R58). -/
theorem reservedWord_maskLogical_iff {w : Word} :
    ReservedWord .maskLogicalMasked w ↔ w &&& 0xE200707F#32 = 0x60002057#32 := by
  rw [and_mask_reserved_eq_iff]
  constructor
  · rintro ⟨⟩
    exact ⟨_, _, _, _, ‹_›, rfl⟩
  · rintro ⟨f6, vs2, vs1, rd, h, rfl⟩
    exact .maskLogical f6 vs2 vs1 rd h

/-- The decoder answers one of three things. -/
theorem decode_eq_notInSpec_iff {w : Word} :
    decode w = .notInSpec ↔ (∀ i, decode w ≠ .instr i) ∧ ∀ k, decode w ≠ .reserved k := by
  cases decode w <;> simp

/-- A word is an instruction's exactly when some row covers it. -/
theorem forall_covers_eq_false_iff {w : Word} :
    (∀ i : Instr, i.row.covers w = false) ↔ ∀ i, decode w ≠ .instr i := by
  simp only [← Bool.not_eq_true, covers_iff_exists_decode]
  constructor
  · exact fun h i hi => h i ⟨i, hi, rfl⟩
  · rintro h i ⟨j, hj, _⟩
    exact h j hj

theorem forall_reservedKind {p : ReservedKind → Prop} : (∀ k, p k) ↔ p .vidVs2NotZero ∧ p .maskLogicalMasked :=
  ⟨fun h => ⟨h _, h _⟩, fun ⟨hv, hm⟩ k => by cases k <;> assumption⟩

/-! ## Assembler lines (R61, R62) -/

/-- The instruction an assembler line names (R61): the mnemonic selects it, and it is unmasked if no operand is left. -/
def instrOfAsm (l : AsmLine) : Option Instr :=
  match l.mnemonic, l.operands with
  | "vmandnot.mm", [.v vd, .v vs2, .v vs1] => some (.vmandnotMm vd vs2 vs1)
  | "vmand.mm", [.v vd, .v vs2, .v vs1] => some (.vmandMm vd vs2 vs1)
  | "vmor.mm", [.v vd, .v vs2, .v vs1] => some (.vmorMm vd vs2 vs1)
  | "vmxor.mm", [.v vd, .v vs2, .v vs1] => some (.vmxorMm vd vs2 vs1)
  | "vmornot.mm", [.v vd, .v vs2, .v vs1] => some (.vmornotMm vd vs2 vs1)
  | "vmnand.mm", [.v vd, .v vs2, .v vs1] => some (.vmnandMm vd vs2 vs1)
  | "vmnor.mm", [.v vd, .v vs2, .v vs1] => some (.vmnorMm vd vs2 vs1)
  | "vmxnor.mm", [.v vd, .v vs2, .v vs1] => some (.vmxnorMm vd vs2 vs1)
  | "vpopc.m", .x rd :: .v vs2 :: mask => some (.vpopcM rd vs2 mask.isEmpty)
  | "vfirst.m", .x rd :: .v vs2 :: mask => some (.vfirstM rd vs2 mask.isEmpty)
  | "vmsbf.m", .v vd :: .v vs2 :: mask => some (.vmsbfM vd vs2 mask.isEmpty)
  | "vmsof.m", .v vd :: .v vs2 :: mask => some (.vmsofM vd vs2 mask.isEmpty)
  | "vmsif.m", .v vd :: .v vs2 :: mask => some (.vmsifM vd vs2 mask.isEmpty)
  | "viota.m", .v vd :: .v vs2 :: mask => some (.viotaM vd vs2 mask.isEmpty)
  | "vid.v", .v vd :: mask => some (.vidV vd mask.isEmpty)
  | _, _ => none

@[simp] theorem isEmpty_asmVm (vm : Bool) : (asmVm vm).isEmpty = vm := by cases vm <;> rfl

theorem instrOfAsm_asm (i : Instr) : instrOfAsm i.asm = some i := by
  cases i with
  | vmandnotMm | vmandMm | vmorMm | vmxorMm | vmornotMm | vmnandMm | vmnorMm | vmxnorMm => rfl
  | vpopcM _ _ vm | vfirstM _ _ vm | vmsbfM _ _ vm | vmsofM _ _ vm | vmsifM _ _ vm | viotaM _ _ vm | vidV _ vm =>
    cases vm <;> rfl

/-- Settles O7: the line can be read back. -/
theorem assemblerLineNamesInstruction : Obligations.AssemblerLineNamesInstruction := by
  intro i j h
  have hread := congrArg instrOfAsm h
  rw [instrOfAsm_asm, instrOfAsm_asm] at hread
  exact Option.some.inj hread

theorem asmVm_eq_maskOperand (vm : Bool) : asmVm vm = Machine.maskOperand vm := by cases vm <;> rfl

/-- Settles O43: the lines are those of R61, `asmVm` being the mask operand they write. -/
theorem assemblerSyntax : Obligations.AssemblerSyntax := by
  intro vd rd vs2 vs1 vm
  rw [← asmVm_eq_maskOperand]
  exact ⟨rfl, rfl, rfl, rfl, rfl, rfl, rfl, rfl, rfl, rfl, rfl, rfl, rfl, rfl, rfl⟩

/-- A shorthand is a mask-logical instruction (R62). -/
theorem Pseudo.expand_logical (p : Pseudo) :
    ∃ r ∈ Machine.logicalRules, ∃ a b c : RegNum, p.expand = r.1 a b c := by
  cases p with
  | vmcpyM vd vs => exact ⟨Machine.logicalRules[0], List.getElem_mem _, vd, vs, vs, rfl⟩
  | vmclrM vd => exact ⟨Machine.logicalRules[3], List.getElem_mem _, vd, vd, vd, rfl⟩
  | vmsetM vd => exact ⟨Machine.logicalRules[7], List.getElem_mem _, vd, vd, vd, rfl⟩
  | vmnotM vd vs => exact ⟨Machine.logicalRules[1], List.getElem_mem _, vd, vs, vs, rfl⟩

/-- The mnemonics of the opcode table. -/
def rowMnemonics : List String :=
  ["vmandnot.mm", "vmand.mm", "vmor.mm", "vmxor.mm", "vmornot.mm", "vmnand.mm", "vmnor.mm", "vmxnor.mm",
   "vpopc.m", "vfirst.m", "vmsbf.m", "vmsof.m", "vmsif.m", "viota.m", "vid.v"]

theorem Instr.row_mnemonic_mem (i : Instr) : i.row.mnemonic ∈ rowMnemonics := by
  cases i <;> simp [Instr.row, rowMnemonics]

theorem Pseudo.asm_mnemonic_notMem (p : Pseudo) : p.asm.mnemonic ∉ rowMnemonics := by
  cases p <;> simp [Pseudo.asm, rowMnemonics]

/-- Settles O44: no mnemonic of a shorthand is among those of the rows. -/
theorem pseudoInstructionsAssemble : Obligations.PseudoInstructionsAssemble := by
  refine ⟨fun vd vs => ⟨rfl, rfl, rfl, rfl⟩, fun p => ⟨p.expand_logical, decode_encode _, fun i h => ?_⟩⟩
  exact p.asm_mnemonic_notMem (h ▸ i.row_mnemonic_mem)

end Sys2Proof

namespace Sys2Proof.Machine

variable {s : State} {w : Word}

/-! ## What the step makes of a word that is no instruction (R57, R58, R59) -/

theorem step_of_fetch_reserved {k : ReservedKind} (hf : s.fetch = .ok w) (hd : decode w = .reserved k) :
    step s = raiseIllegal w s := by
  simp [step, hf, hd]

theorem step_of_fetch_notInSpec (hf : s.fetch = .ok w) (hd : decode w = .notInSpec) :
    step s = .refused (.notInSpec w) := by
  simp [step, hf, hd]

/-- Settles O4: which words are reserved is read off the masks (D14, D15), and the step raises on each. -/
theorem reservedWordsRaise : Obligations.ReservedWordsRaise :=
  ⟨fun _ => decode_eq_reserved_iff.trans reservedWord_vid_iff,
    fun _ => decode_eq_reserved_iff.trans reservedWord_maskLogical_iff,
    fun _ _ _ => step_of_fetch_reserved⟩

/-- Settles O5: a word of no rule is what the rows and the two reserved sets leave over (D28). -/
theorem otherWordsRefused : Obligations.OtherWordsRefused := by
  refine ⟨fun w => ?_, fun _ _ => step_of_fetch_notInSpec⟩
  rw [decode_eq_notInSpec_iff, forall_covers_eq_false_iff, forall_reservedKind, ne_eq, ne_eq, decode_eq_reserved_iff,
    decode_eq_reserved_iff, reservedWord_vid_iff, reservedWord_maskLogical_iff]

end Sys2Proof.Machine
end

section
/-! PROOFS. The family of 40_mask_logical.md: what the common procedure of R70 leaves in the destination, the eight
instructions (R71 to R78), the four shorthands (R79 to R82) and the sixteen functions of two masks (R83). -/

namespace Sys2Proof.Machine

variable {s : State} {i : Instr} {inst : Word} {op : Bool → Bool → Bool} {vd vs2 vs1 : RegNum}

/-! ## The common procedure (R70) -/

theorem State.writesTail_eq_true (ht : ¬ s.noTailWrite) : s.writesTail = true := by
  rw [← Bool.not_eq_false, s.writesTail_eq_false_iff]
  exact ht

/-- What is written to element `k`, by the bounds alone: past the prestart elements, `vl` parts body from tail. -/
theorem State.logicalBit_eq (k : Nat) :
    s.logicalBit op vs2 vs1 k =
      if k < s.vstart.toNat then none
      else if k < s.vl.toNat then some (op (mbit s.mlen (s.readV vs2) k) (mbit s.mlen (s.readV vs1) k))
      else if s.writesTail then some false
      else none := by
  simp only [State.logicalBit, State.prestart_eq_true_iff, State.body_eq_true_iff]
  by_cases hp : k < s.vstart.toNat
  · rw [if_pos hp, if_pos hp]
  · rw [if_neg hp, if_neg hp]
    simp only [Nat.le_of_not_lt hp, true_and]

/-- Mask element `k` of the destination register, where the tail is written. -/
theorem State.melem_maskResult_logicalBit (ht : ¬ s.noTailWrite) (old : BitVec s.cfg.vlen) {k : Nat}
    (hk : k < s.vlmax) :
    melem s.mlen (s.maskResult old (s.logicalBit op vs2 vs1)) k =
      if k < s.vstart.toNat then melem s.mlen old k
      else if k < s.vl.toNat then
        (BitVec.ofBool (op (mbit s.mlen (s.readV vs2) k) (mbit s.mlen (s.readV vs1) k))).setWidth s.mlen
      else 0#_ := by
  rw [s.melem_maskResult _ _ hk, State.logicalBit_eq, State.writesTail_eq_true ht]
  by_cases hp : k < s.vstart.toNat
  · simp only [if_pos hp]
  · by_cases hl : k < s.vl.toNat
    · simp only [if_neg hp, if_pos hl]
    · simp [if_neg hp, if_neg hl]

/-- The instruction completes as R70 says, `bit k` being the result bit of body element `k`: elements before `vstart`
are left, the tail is zeroed, `vstart` becomes 0 and the pc advances. -/
def LogicalCompletes (i : Instr) (vd : RegNum) (bit : Nat → Bool) (s : State) : Prop :=
  ∃ w : BitVec s.cfg.vlen,
    exec i s = .next { s with v := s.v.set vd.val w, vstart := 0#_, pc := s.pc + 4#_ } ∧
    ∀ k < s.vlmax, melem s.mlen w k =
      if k < s.vstart.toNat then melem s.mlen (s.readV vd) k
      else if k < s.vl.toNat then (BitVec.ofBool (bit k)).setWidth s.mlen
      else 0#_

/-- An instruction that runs the common procedure completes with the bit function it hands over. -/
theorem logicalCompletes_of_exec_eq (hv : s.vtype.vill = false) (ht : ¬ s.noTailWrite)
    (he : exec i s = maskLogical inst op vd vs2 vs1 s) {bit : Nat → Bool}
    (hb : ∀ k, op (mbit s.mlen (s.readV vs2) k) (mbit s.mlen (s.readV vs1) k) = bit k) :
    LogicalCompletes i vd bit s := by
  rcases maskLogical_cases inst op vd vs2 vs1 s with ⟨hvill, _⟩ | ⟨_, hnext⟩
  · exact absurd (hv.symm.trans hvill) Bool.false_ne_true
  · refine ⟨s.maskResult (s.readV vd) (s.logicalBit op vs2 vs1), he.trans hnext, fun k hk => ?_⟩
    rw [State.melem_maskResult_logicalBit ht _ hk, hb]

/-! ## The eight instructions (R71 to R78) -/

/-- R78 writes the function as NOT XOR, that is NOT NOT of equality. -/
theorem opXnor_eq_beq : opXnor = fun a b => a == b := by
  funext a b
  exact Bool.not_not (a == b)

/-- Each rule's constructor runs the common procedure with the rule's bit function. -/
theorem exec_of_mem_logicalRules (vd vs2 vs1 : RegNum) (s : State) :
    ∀ p ∈ logicalRules,
      exec (p.1 vd vs2 vs1) s = maskLogical (encode (p.1 vd vs2 vs1)) p.2.1 vd vs2 vs1 s := by
  simp only [logicalRules, List.forall_mem_cons]
  exact ⟨rfl, rfl, rfl, rfl, rfl, rfl, rfl,
    congrArg (fun f => maskLogical (encode (.vmxnorMm vd vs2 vs1)) f vd vs2 vs1 s) opXnor_eq_beq,
    List.forall_mem_nil _⟩

/-- Each rule's match word is that of its row of the opcode table, under the mask of R54. -/
theorem row_of_mem_logicalRules (vd vs2 vs1 : RegNum) :
    ∀ p ∈ logicalRules,
      (p.1 vd vs2 vs1).row.mask = 0xFE00707F#32 ∧ (p.1 vd vs2 vs1).row.fixed = p.2.2 := by
  simp only [logicalRules, List.forall_mem_cons]
  exact ⟨⟨rfl, rfl⟩, ⟨rfl, rfl⟩, ⟨rfl, rfl⟩, ⟨rfl, rfl⟩, ⟨rfl, rfl⟩, ⟨rfl, rfl⟩, ⟨rfl, rfl⟩, ⟨rfl, rfl⟩,
    List.forall_mem_nil _⟩

/-- Settles O20: the eight run the common procedure, and the word of an instruction is covered by its row. -/
theorem maskLogicalResult : Obligations.MaskLogicalResult := by
  intro p hp vd vs2 vs1 s
  refine ⟨fun hv ht => ?_, ?_⟩
  · exact logicalCompletes_of_exec_eq hv ht (exec_of_mem_logicalRules vd vs2 vs1 s p hp) (fun _ => rfl)
  · obtain ⟨hmask, hfixed⟩ := row_of_mem_logicalRules vd vs2 vs1 p hp
    rw [← hmask, ← hfixed]
    exact OpcodeRow.covers_iff.1 (covers_encode _)

/-! ## The sixteen functions (R83) -/

/-- The function of two bits whose outputs for (0,0), (0,1), (1,0), (1,1) are the four given (R83). -/
def tableBit (t : Bool × Bool × Bool × Bool) (a b : Bool) : Bool :=
  match a, b with
  | false, false => t.1
  | false, true => t.2.1
  | true, false => t.2.2.1
  | true, true => t.2.2.2

/-- Whatever bits the registers hold, those of the two operands give the row's output for the bits of the sources. -/
def RowComputes (vd src1 src2 : RegNum) (t : Bool × Bool × Bool × Bool) (i : Instr) : Prop :=
  ∃ (op : Bool → Bool → Bool) (a b : RegNum),
    (∀ s, exec i s = maskLogical (encode i) op vd a b s) ∧
    ∀ bitOf : RegNum → Bool, op (bitOf a) (bitOf b) = tableBit t (bitOf src1) (bitOf src2)

/-- The sixteen rows: the operation and the operands of each, then its truth table over the bits of `vd` and the
sources. -/
theorem rowComputes_of_mem_sixteenFunctions (vd src1 src2 : RegNum) :
    ∀ p ∈ sixteenFunctions vd src1 src2, RowComputes vd src1 src2 p.1 p.2 := by
  simp only [sixteenFunctions, List.forall_mem_cons]
  refine ⟨⟨opXor, vd, vd, fun _ => rfl, fun bitOf => ?_⟩,
    ⟨opNor, src1, src2, fun _ => rfl, fun bitOf => ?_⟩,
    ⟨opAndNot, src2, src1, fun _ => rfl, fun bitOf => ?_⟩,
    ⟨opNand, src1, src1, fun _ => rfl, fun bitOf => ?_⟩,
    ⟨opAndNot, src1, src2, fun _ => rfl, fun bitOf => ?_⟩,
    ⟨opNand, src2, src2, fun _ => rfl, fun bitOf => ?_⟩,
    ⟨opXor, src1, src2, fun _ => rfl, fun bitOf => ?_⟩,
    ⟨opNand, src1, src2, fun _ => rfl, fun bitOf => ?_⟩,
    ⟨opAnd, src1, src2, fun _ => rfl, fun bitOf => ?_⟩,
    ⟨opXnor, src1, src2, fun _ => rfl, fun bitOf => ?_⟩,
    ⟨opAnd, src2, src2, fun _ => rfl, fun bitOf => ?_⟩,
    ⟨opOrNot, src2, src1, fun _ => rfl, fun bitOf => ?_⟩,
    ⟨opAnd, src1, src1, fun _ => rfl, fun bitOf => ?_⟩,
    ⟨opOrNot, src1, src2, fun _ => rfl, fun bitOf => ?_⟩,
    ⟨opOr, src1, src2, fun _ => rfl, fun bitOf => ?_⟩,
    ⟨opXnor, vd, vd, fun _ => rfl, fun bitOf => ?_⟩,
    List.forall_mem_nil _⟩
  all_goals
    generalize bitOf vd = d, bitOf src1 = a, bitOf src2 = b
    revert d a b
    decide

/-- Every choice of four outputs is a row: the first components are all sixteen. -/
theorem exists_mem_sixteenFunctions (vd src1 src2 : RegNum) (t : Bool × Bool × Bool × Bool) :
    ∃ i, (t, i) ∈ sixteenFunctions vd src1 src2 := by
  have hall : ∀ t : Bool × Bool × Bool × Bool, t ∈ (sixteenFunctions 0 0 0).map Prod.fst := by decide
  have ht : t ∈ (sixteenFunctions vd src1 src2).map Prod.fst := hall t
  obtain ⟨⟨_, i⟩, hmem, rfl⟩ := List.mem_map.1 ht
  exact ⟨i, hmem⟩

/-- Settles O21: all sixteen are in the table, and each row's instruction has the row's truth table. -/
theorem sixteenFunctionsComputed : Obligations.SixteenFunctionsComputed := by
  intro vd src1 src2
  refine ⟨fun a b c d => exists_mem_sixteenFunctions vd src1 src2 (a, b, c, d), fun p hp s hv ht => ?_⟩
  obtain ⟨op, a, b, hexec, hbits⟩ := rowComputes_of_mem_sixteenFunctions vd src1 src2 p hp
  exact logicalCompletes_of_exec_eq hv ht (hexec s) fun k => hbits fun n => mbit s.mlen (s.readV n) k

/-! ## The four shorthands (R79 to R82) -/

/-- Settles O22: each shorthand's instruction has equal operands, and the operation on equal bits is the copy, 0, 1 or
the inverse. -/
theorem pseudoInstructionEffects : Obligations.PseudoInstructionEffects := by
  refine ⟨fun vd vs s hv ht => ?_, by decide, by decide, by decide, by decide⟩
  simp only [List.forall_mem_cons]
  exact ⟨⟨rfl, logicalCompletes_of_exec_eq hv ht rfl fun _ => Bool.and_self _⟩,
    ⟨rfl, logicalCompletes_of_exec_eq hv ht rfl fun _ => Bool.xor_self _⟩,
    ⟨rfl, logicalCompletes_of_exec_eq hv ht rfl fun _ => congrArg (!·) (Bool.xor_self _)⟩,
    ⟨rfl, logicalCompletes_of_exec_eq hv ht rfl fun _ => congrArg (!·) (Bool.and_self _)⟩,
    List.forall_mem_nil _⟩

end Sys2Proof.Machine
end

section
/-! PROOFS. The family of 41_mask_popc_first.md: the two instructions that write a mask's population count (R90) or the
index of its first set element (R91) to a scalar register, and the sign of the latter (R92). -/

namespace Sys2Proof.Machine

variable {s : State} {vm : Bool} {vs2 : RegNum}

/-! ## The active set elements when `vstart` = 0 (R11) -/

section FromElementZero
variable (h0 : s.vstart.toNat = 0)
include h0

/-- Below `vl` the active set elements are the enabled ones whose bit is set. -/
theorem State.activeSet_eq_enabledSet {i : Nat} (hi : i < s.vl.toNat) :
    s.activeSet vm vs2 i = s.enabledSet vm vs2 i :=
  State.activeSet_of_vstart_zero h0 vm vs2 hi

theorem State.popCount_eq_countP : s.popCount vm vs2 = (List.range s.vl.toNat).countP (s.enabledSet vm vs2) := by
  rw [State.popCount, countBelow_eq_countP]
  refine List.countP_congr fun i hi => ?_
  rw [State.activeSet_eq_enabledSet h0 (List.mem_range.1 hi)]

theorem State.firstActive_eq_none_iff :
    s.firstActive vm vs2 = none ↔ ∀ i < s.vl.toNat, s.enabledSet vm vs2 i = false := by
  rw [State.firstActive, firstBelow_eq_none_iff]
  exact forall₂_congr fun i hi => by rw [State.activeSet_eq_enabledSet h0 hi]

theorem State.firstActive_eq_some_iff {i : Nat} :
    s.firstActive vm vs2 = some i ↔
      i < s.vl.toNat ∧ s.enabledSet vm vs2 i = true ∧ ∀ j < i, s.enabledSet vm vs2 j = false := by
  rw [State.firstActive, firstBelow_eq_some_iff]
  refine and_congr_right fun hi => ?_
  rw [State.activeSet_eq_enabledSet h0 hi]
  refine and_congr_right fun _ => forall₂_congr fun j hj => ?_
  rw [State.activeSet_eq_enabledSet h0 (hj.trans hi)]

end FromElementZero

/-! ## The common procedure of R90 and R91 -/

section MaskToScalar
variable {inst : Word} {rd : RegNum} {w : BitVec s.cfg.xlen}

theorem maskToScalar_eq_next (hv : s.vtype.vill = false) (h0 : s.vstart.toNat = 0) :
    maskToScalar inst rd s w = .next (s.writeX rd w).advancePc := by
  rcases maskToScalar_cases inst rd s w with ⟨hvill | hstart, _⟩ | ⟨_, _, hnext⟩
  · exact absurd (hv.symm.trans hvill) Bool.false_ne_true
  · exact absurd h0 hstart
  · exact hnext

theorem maskToScalar_eq_raiseIllegal (h : s.vtype.vill = true ∨ s.vstart.toNat ≠ 0) :
    maskToScalar inst rd s w = raiseIllegal inst s := by
  rcases maskToScalar_cases inst rd s w with ⟨_, hraise⟩ | ⟨hv, h0, _⟩
  · exact hraise
  · rcases h with hvill | hstart
    · exact absurd (hv.symm.trans hvill) Bool.false_ne_true
    · exact absurd h0 hstart

/-- The sign of the result can be read back, unless the result was discarded (R20). -/
theorem msb_readX_advancePc_writeX_self (hrd : rd ≠ 0) :
    ((s.writeX rd w).advancePc.readX rd).msb = w.msb :=
  congrArg BitVec.msb ((readX_writeX s rd rd w).trans (if_pos ⟨rfl, hrd⟩))

end MaskToScalar

/-! ## Population count (R90) -/

/-- Settles O25: the count over the body is the count below `vl`, `vstart` being 0. -/
theorem vpopcCountsActiveSetElements : Obligations.VpopcCountsActiveSetElements := by
  intro rd vs2 vm s
  refine ⟨fun hv h0 => ⟨?_, ?_⟩, maskToScalar_eq_raiseIllegal,
    OpcodeRow.covers_iff.1 (covers_encode (.vpopcM rd vs2 vm))⟩
  · exact List.countP_le_length.trans_eq List.length_range
  · rw [← State.popCount_eq_countP h0]
    exact maskToScalar_eq_next hv h0

/-! ## Find first set (R91, R92) -/

/-- What `vfirst.m` writes for the element it found: its index, or -1 (R91). -/
def firstResult (xlen : Nat) : Option Nat → BitVec xlen
  | some i => BitVec.ofNat xlen i
  | none => BitVec.allOnes xlen

theorem exec_vfirstM (rd vs2 : RegNum) (vm : Bool) (s : State) :
    exec (.vfirstM rd vs2 vm) s =
      maskToScalar (encode (.vfirstM rd vs2 vm)) rd s (firstResult _ (s.firstActive vm vs2)) := rfl

/-- An index below `vl` fits the register `vl` fits. -/
theorem firstResult_toNat_of_lt_vl {i : Nat} (hi : i < s.vl.toNat) :
    (firstResult s.cfg.xlen (some i)).toNat = i :=
  Nat.mod_eq_of_lt (hi.trans s.vl.isLt)

/-- Settles O26: the element found is the lowest enabled one below `vl` whose bit is set. -/
theorem vfirstFindsLowestActiveSetElement : Obligations.VfirstFindsLowestActiveSetElement := by
  intro rd vs2 vm s
  refine ⟨fun hv h0 => ⟨firstResult _ (s.firstActive vm vs2), maskToScalar_eq_next hv h0, ?_, ?_⟩,
    maskToScalar_eq_raiseIllegal, OpcodeRow.covers_iff.1 (covers_encode (.vfirstM rd vs2 vm))⟩
  · intro hnone
    rw [(State.firstActive_eq_none_iff h0).2 hnone, firstResult]
  · intro i hi hset hbelow
    rw [(State.firstActive_eq_some_iff h0).2 ⟨hi, hset, hbelow⟩, firstResult_toNat_of_lt_vl hi]

/-- The result is negative exactly when nothing was found: element indices lie below `vl` <= 2^31 (R7, R92). -/
theorem State.Inv.msb_firstResult_iff (h : s.Inv) (hv : s.vtype.vill = false) (h0 : s.vstart.toNat = 0) :
    (firstResult s.cfg.xlen (s.firstActive vm vs2)).msb = true ↔ s.firstActive vm vs2 = none := by
  cases hf : s.firstActive vm vs2 with
  | none =>
    have hpos : 0 < s.cfg.xlen := by rcases xlen_cases s.cfg with hx | hx <;> omega
    simp [firstResult, BitVec.msb_allOnes hpos]
  | some i =>
    obtain ⟨hi, _⟩ := (State.firstActive_eq_some_iff h0).1 hf
    have hlt : i < 2 ^ 31 := hi.trans_le ((h.vlLe hv).trans h.vlmax_le)
    simp [firstResult, (toNat_ofNat_xlen_and_msb s.cfg hlt).2]

/-- Settles O27: the register that is read back holds the result, whose sign tells whether an element was found. -/
theorem vfirstNegativeMeansNoneFound : Obligations.VfirstNegativeMeansNoneFound := by
  intro rd vs2 vm s h hv h0 hrd
  refine ⟨_, (exec_vfirstM rd vs2 vm s).trans (maskToScalar_eq_next hv h0), ?_⟩
  rw [msb_readX_advancePc_writeX_self hrd, h.msb_firstResult_iff hv h0, State.firstActive_eq_none_iff h0]

end Sys2Proof.Machine
end

section
/-! PROOFS. The family of 42_mask_set_first.md: what the common procedure of R100 leaves in the destination, the three
instructions (R101 to R103), and how they relate to one another and to `vfirst.m` (R100, corner cases). -/

namespace Sys2Proof.Machine

variable {s : State} {inst : Word} {kind : FirstKind} {vd vs2 : RegNum} {vm : Bool}

/-! ## The common procedure (R100) -/

theorem setFirst_eq_next (hv : s.vtype.vill = false) (h0 : s.vstart.toNat = 0) :
    setFirst inst kind vd vs2 vm s = .next (s.writeMask vd (s.setFirstBit kind vs2 vm)).advancePc := by
  rcases setFirst_cases inst kind vd vs2 vm s with ⟨hvill | hstart, _⟩ | ⟨_, _, hnext⟩
  · exact absurd (hv.symm.trans hvill) Bool.false_ne_true
  · exact absurd h0 hstart
  · exact hnext

theorem setFirst_eq_raiseIllegal (h : s.vtype.vill = true ∨ s.vstart.toNat ≠ 0) :
    setFirst inst kind vd vs2 vm s = raiseIllegal inst s := by
  rcases setFirst_cases inst kind vd vs2 vm s with ⟨_, hraise⟩ | ⟨hv, h0, _⟩
  · exact hraise
  · rcases h with hvill | hstart
    · exact absurd (hv.symm.trans hvill) Bool.false_ne_true
    · exact absurd h0 hstart

theorem State.setFirstBit_tail {i : Nat} (hi : s.vl.toNat ≤ i) :
    s.setFirstBit kind vs2 vm i = if s.noTailWrite then none else some false := by
  rw [State.setFirstBit, if_pos hi]
  by_cases ht : s.noTailWrite
  · rw [if_pos ht, (s.writesTail_eq_false_iff).2 ht, if_neg Bool.false_ne_true]
  · rw [if_neg ht, State.writesTail_eq_true ht, if_pos rfl]

theorem State.setFirstBit_body {i : Nat} (hi : i < s.vl.toNat) :
    s.setFirstBit kind vs2 vm i =
      if s.maskOn vm i = true then some (firstBit kind (s.firstActive vm vs2) i) else none := by
  rw [State.setFirstBit, if_neg (Nat.not_le.2 hi)]

/-- Mask element `i` of the destination register: the tail is cleared unless D32 leaves it, an inactive element is left
(D11). -/
theorem State.melem_maskResult_setFirstBit (old : BitVec s.cfg.vlen) {i : Nat} (hi : i < s.vlmax) :
    melem s.mlen (s.maskResult old (s.setFirstBit kind vs2 vm)) i =
      if s.vl.toNat ≤ i then (if s.noTailWrite then melem s.mlen old i else 0#_)
      else if s.maskOn vm i = true then
        (BitVec.ofBool (firstBit kind (s.firstActive vm vs2) i)).setWidth s.mlen
      else melem s.mlen old i := by
  rw [s.melem_maskResult _ _ hi]
  by_cases hl : s.vl.toNat ≤ i
  · rw [State.setFirstBit_tail hl, if_pos hl]
    by_cases ht : s.noTailWrite
    · simp only [if_pos ht]
    · simp [if_neg ht]
  · rw [State.setFirstBit_body (Nat.lt_of_not_le hl), if_neg hl]
    by_cases hm : s.maskOn vm i = true
    · simp only [if_pos hm]
    · simp only [if_neg hm]

/-! ## The three-way choice (R100) -/

section ThreeWayChoice
variable (first : Option Nat) (i : Nat)

/-- `vmsbf.m` sets what lies before the first set element, or everything if there is none (R101). -/
theorem firstBit_sbf_eq_true_iff : firstBit .sbf first i = true ↔ ∀ f, first = some f → i + 1 ≤ f := by
  cases first with
  | none => simp [firstBit, beforeFirst]
  | some f => simp [firstBit, beforeFirst, atFirst, afterFirst]

/-- `vmsif.m` sets the first set element as well (R102). -/
theorem firstBit_sif_eq_true_iff : firstBit .sif first i = true ↔ ∀ f, first = some f → i ≤ f := by
  cases first with
  | none => simp [firstBit, beforeFirst]
  | some f => simp [firstBit, beforeFirst, atFirst, afterFirst, Nat.le_iff_lt_or_eq]

/-- `vmsof.m` sets the first set element alone (R103). -/
theorem firstBit_sof_eq_true_iff : firstBit .sof first i = true ↔ first = some i := by
  cases first with
  | none => simp [firstBit, beforeFirst]
  | some f =>
    rcases Nat.lt_trichotomy i f with hlt | rfl | hgt
    · simp [firstBit, beforeFirst, hlt, hlt.ne']
    · simp [firstBit, atFirst]
    · simp [firstBit, afterFirst, hgt.not_gt, hgt.ne, hgt.ne']

end ThreeWayChoice

/-- The first active set element is not below `k` exactly when no index below `k` is enabled with its bit set. -/
theorem State.le_firstActive_iff (h0 : s.vstart.toNat = 0) {k : Nat} (hk : k ≤ s.vl.toNat) :
    (∀ f, s.firstActive vm vs2 = some f → k ≤ f) ↔ ∀ j < k, s.enabledSet vm vs2 j = false := by
  constructor
  · intro h j hj
    cases hf : s.firstActive vm vs2 with
    | none => exact (State.firstActive_eq_none_iff h0).1 hf j (hj.trans_le hk)
    | some f =>
      obtain ⟨_, _, hbelow⟩ := (State.firstActive_eq_some_iff h0).1 hf
      exact hbelow j (hj.trans_le (h f hf))
  · intro h f hf
    obtain ⟨_, hset, _⟩ := (State.firstActive_eq_some_iff h0).1 hf
    by_contra hlt
    exact Bool.false_ne_true ((h f (Nat.lt_of_not_le hlt)).symm.trans hset)

/-! ## The three instructions (R101 to R103) -/

section Body
variable (h0 : s.vstart.toNat = 0) {i : Nat} (hi : i < s.vl.toNat)
include h0 hi

theorem State.firstBit_sbf_firstActive :
    firstBit .sbf (s.firstActive vm vs2) i = decide (∀ j < i + 1, s.enabledSet vm vs2 j = false) := by
  rw [Bool.eq_iff_iff, firstBit_sbf_eq_true_iff, State.le_firstActive_iff h0 hi, decide_eq_true_iff]

theorem State.firstBit_sif_firstActive :
    firstBit .sif (s.firstActive vm vs2) i = decide (∀ j < i, s.enabledSet vm vs2 j = false) := by
  rw [Bool.eq_iff_iff, firstBit_sif_eq_true_iff, State.le_firstActive_iff h0 hi.le, decide_eq_true_iff]

theorem State.firstBit_sof_firstActive :
    firstBit .sof (s.firstActive vm vs2) i =
      (s.enabledSet vm vs2 i && decide (∀ j < i, s.enabledSet vm vs2 j = false)) := by
  rw [Bool.eq_iff_iff, firstBit_sof_eq_true_iff, State.firstActive_eq_some_iff h0, Bool.and_eq_true,
    decide_eq_true_iff]
  exact and_iff_right hi

end Body

/-- Each rule's constructor runs the common procedure for one kind, and in the body that kind's choice is the value the
rule gives. -/
theorem exec_of_mem_setFirstRules (vd vs2 : RegNum) (vm : Bool) (s : State) :
    ∀ p ∈ setFirstRules, ∃ kind,
      exec (p.1 vd vs2 vm) s = setFirst (encode (p.1 vd vs2 vm)) kind vd vs2 vm s ∧
      (s.vstart.toNat = 0 → ∀ i < s.vl.toNat,
        firstBit kind (s.firstActive vm vs2) i = p.2.1 (s.enabledSet vm vs2) i) := by
  simp only [setFirstRules, List.forall_mem_cons]
  exact ⟨⟨.sbf, rfl, fun h0 _ hi => State.firstBit_sbf_firstActive h0 hi⟩,
    ⟨.sif, rfl, fun h0 _ hi => State.firstBit_sif_firstActive h0 hi⟩,
    ⟨.sof, rfl, fun h0 _ hi => State.firstBit_sof_firstActive h0 hi⟩,
    List.forall_mem_nil _⟩

/-- Each rule's match word is that of its row of the opcode table, under the mask of R56. -/
theorem row_of_mem_setFirstRules (vd vs2 : RegNum) (vm : Bool) :
    ∀ p ∈ setFirstRules,
      (p.1 vd vs2 vm).row.mask = 0xFC0FF07F#32 ∧ (p.1 vd vs2 vm).row.fixed = p.2.2 := by
  simp only [setFirstRules, List.forall_mem_cons]
  exact ⟨⟨rfl, rfl⟩, ⟨rfl, rfl⟩, ⟨rfl, rfl⟩, List.forall_mem_nil _⟩

/-- Settles O28: the three run the common procedure, and below `vl` the comparison with the first active set element
gives the value of the rule. -/
theorem setFirstResult : Obligations.SetFirstResult := by
  intro p hp vd vs2 vm s
  obtain ⟨kind, hexec, hvalue⟩ := exec_of_mem_setFirstRules vd vs2 vm s p hp
  refine ⟨fun hv h0 => ?_, fun h => hexec.trans (setFirst_eq_raiseIllegal h), ?_⟩
  · refine ⟨s.maskResult (s.readV vd) (s.setFirstBit kind vs2 vm), hexec.trans (setFirst_eq_next hv h0),
      fun i hi => ?_⟩
    rw [State.melem_maskResult_setFirstBit _ hi]
    by_cases hl : s.vl.toNat ≤ i
    · rw [if_pos hl, if_pos hl]
    · rw [if_neg hl, if_neg hl, hvalue h0 i (Nat.lt_of_not_le hl), State.maskOn]
  · obtain ⟨hmask, hfixed⟩ := row_of_mem_setFirstRules vd vs2 vm p hp
    rw [← hmask, ← hfixed]
    exact OpcodeRow.covers_iff.1 (covers_encode _)

/-! ## The laws of the family (R100, corner cases) -/

section Laws
variable (first : Option Nat)

theorem firstBit_sif_eq_or (i : Nat) :
    firstBit .sif first i = (firstBit .sbf first i || firstBit .sof first i) := by
  cases first with
  | none => rfl
  | some f =>
    rw [Bool.eq_iff_iff, Bool.or_eq_true, firstBit_sif_eq_true_iff, firstBit_sbf_eq_true_iff, firstBit_sof_eq_true_iff]
    simp only [Option.some.injEq, forall_eq']
    omega

theorem firstBit_sbf_and_sof (i : Nat) : (firstBit .sbf first i && firstBit .sof first i) = false := by
  rw [Bool.and_eq_false_imp, firstBit_sbf_eq_true_iff]
  intro hsbf
  rw [← Bool.not_eq_true, firstBit_sof_eq_true_iff]
  intro hfirst
  exact Nat.lt_irrefl i (hsbf i hfirst)

/-- No two indices can both be the first set element. -/
theorem countP_firstBit_sof_le_one (n : Nat) : (List.range n).countP (firstBit .sof first) ≤ 1 := by
  cases first with
  | none => exact (List.countP_eq_zero.2 fun _ _ => Bool.false_ne_true).trans_le (Nat.zero_le 1)
  | some f =>
    have hcount : (List.range n).countP (firstBit .sof (some f)) = (List.range n).count f := by
      refine List.countP_congr fun i _ => ?_
      rw [firstBit_sof_eq_true_iff, Option.some.injEq, beq_iff_eq, eq_comm]
    rw [hcount]
    exact List.nodup_iff_count_le_one.1 List.nodup_range f

theorem countP_range_lt (f n : Nat) : (List.range n).countP (fun i => decide (i < f)) = min f n := by
  induction n with
  | zero => simp
  | succ n ih =>
    rw [List.range_succ, List.countP_append, ih, List.countP_singleton]
    by_cases h : n < f
    · rw [if_pos (decide_eq_true h)]; omega
    · rw [if_neg (by simpa using h)]; omega

/-- The elements before the first set one are as many as its index; with none set, all are before it. -/
theorem countP_firstBit_sbf {n : Nat} (hn : ∀ f, first = some f → f ≤ n) :
    (List.range n).countP (firstBit .sbf first) = first.getD n := by
  cases first with
  | none =>
    calc (List.range n).countP (firstBit .sbf none) = (List.range n).length :=
          List.countP_eq_length.2 fun _ _ => rfl
      _ = n := List.length_range
  | some f =>
    calc (List.range n).countP (firstBit .sbf (some f)) = (List.range n).countP (fun i => decide (i < f)) :=
          List.countP_congr fun i _ => by simp [firstBit_sbf_eq_true_iff]
      _ = min f n := countP_range_lt f n
      _ = f := Nat.min_eq_left (hn f rfl)

end Laws

/-- What an unmasked instruction of the family leaves in body element `i`, as later instructions read it. -/
theorem State.Inv.mbit_readV_setFirst (h : s.Inv) (hv : s.vtype.vill = false) {i : Nat} (hi : i < s.vl.toNat) :
    mbit s.mlen ((s.writeMask vd (s.setFirstBit kind vs2 true)).advancePc.readV vd) i =
      firstBit kind (s.firstActive true vs2) i := by
  have hread : mbit s.mlen ((s.writeMask vd (s.setFirstBit kind vs2 true)).advancePc.readV vd) i =
      mbit s.mlen (s.maskResult (s.readV vd) (s.setFirstBit kind vs2 true)) i :=
    congrArg (fun w : BitVec s.cfg.vlen => mbit s.mlen w i) ((readV_writeV s vd vd _).trans (if_pos rfl))
  rw [hread, s.mbit_maskResult _ _ (hi.trans_le (h.vlLe hv)), State.setFirstBit_body hi, State.maskOn, Bool.true_or,
    if_pos rfl]

theorem State.Inv.countP_mbit_readV_setFirst (h : s.Inv) (hv : s.vtype.vill = false) :
    (List.range s.vl.toNat).countP
        (mbit s.mlen ((s.writeMask vd (s.setFirstBit kind vs2 true)).advancePc.readV vd)) =
      (List.range s.vl.toNat).countP (firstBit kind (s.firstActive true vs2)) :=
  List.countP_congr fun i hi => by rw [h.mbit_readV_setFirst hv (List.mem_range.1 hi)]

/-- The `vfirst.m` result read as a count: the index found, or `vl` where the result is negative. -/
theorem State.Inv.firstResult_toNat_or_vl (h : s.Inv) (hv : s.vtype.vill = false) (h0 : s.vstart.toNat = 0) :
    (if (firstResult s.cfg.xlen (s.firstActive vm vs2)).msb then s.vl.toNat
      else (firstResult s.cfg.xlen (s.firstActive vm vs2)).toNat) = (s.firstActive vm vs2).getD s.vl.toNat := by
  have hmsb := h.msb_firstResult_iff hv h0 (vm := vm) (vs2 := vs2)
  cases hf : s.firstActive vm vs2 with
  | none => rw [if_pos (hf ▸ hmsb.2 hf), Option.getD_none]
  | some f =>
    obtain ⟨hlt, _⟩ := (State.firstActive_eq_some_iff h0).1 hf
    have hpos : ¬ (firstResult s.cfg.xlen (some f)).msb = true := by
      rw [← hf, hmsb, hf]
      exact Option.some_ne_none f
    rw [if_neg hpos, firstResult_toNat_of_lt_vl hlt, Option.getD_some]

/-- Settles O29: the four instructions compare every element with the same first active set element. -/
theorem setFirstFamilyLaws : Obligations.SetFirstFamilyLaws := by
  intro vd vs2 rd s h hv h0 hrd
  refine ⟨_, _, _, _, setFirst_eq_next hv h0, setFirst_eq_next hv h0, setFirst_eq_next hv h0,
    (exec_vfirstM rd vs2 true s).trans (maskToScalar_eq_next hv h0), fun i hi => ?_, ?_, ?_⟩
  · simp only [h.mbit_readV_setFirst hv hi]
    exact ⟨firstBit_sif_eq_or _ i, firstBit_sbf_and_sof _ i⟩
  · rw [h.countP_mbit_readV_setFirst hv]
    exact countP_firstBit_sof_le_one _ _
  · have hread : (s.writeX rd (firstResult _ (s.firstActive true vs2))).advancePc.readX rd =
        firstResult _ (s.firstActive true vs2) :=
      (readX_writeX s rd rd _).trans (if_pos ⟨rfl, hrd⟩)
    have hle : ∀ f, s.firstActive true vs2 = some f → f ≤ s.vl.toNat := fun f hf =>
      ((State.firstActive_eq_some_iff h0).1 hf).1.le
    rw [h.countP_mbit_readV_setFirst hv, countP_firstBit_sbf _ hle, hread]
    exact (h.firstResult_toNat_or_vl hv h0).symm

end Sys2Proof.Machine
end

section
/-! PROOFS. The family of 43_iota_vid.md: when `viota.m` and `vid.v` complete, what they leave in the elements of the
destination group (R110 to R112), and how they relate to each other and to `vpopc.m` (R111, R112). -/

namespace Sys2Proof.Machine

variable {s : State} {vd vs2 : RegNum} {vm : Bool} {i : Nat}

/-! ## Which of the outcomes it is (R111, R112, R131) -/

/-- The causes for which `viota.m` is illegal, one by one. -/
theorem iotaIllegal_eq_true_iff :
    s.iotaIllegal vd vs2 vm = true ↔
      s.vtype.vill = true ∨ vd.val % s.lmul ≠ 0 ∨ s.vstart.toNat ≠ 0 ∨
        (vd.val ≤ vs2.val ∧ vs2.val < vd.val + s.lmul) ∨ (vm = false ∧ vd = 0) := by
  rw [← Bool.not_eq_false, iotaIllegal_eq_false_iff, ← Bool.not_eq_true, ← Bool.not_eq_true]
  tauto

theorem exec_viotaM_eq_next (hlegal : s.iotaIllegal vd vs2 vm = false) :
    exec (.viotaM vd vs2 vm) s = .next (s.writeGroup vd (s.iotaElem vs2 vm)).advancePc := by
  rcases execViotaM_cases vd vs2 vm s with ⟨hill, _⟩ | ⟨_, hnext⟩
  · exact absurd (hlegal.symm.trans hill) Bool.false_ne_true
  · exact hnext

theorem exec_viotaM_eq_raiseIllegal (hill : s.iotaIllegal vd vs2 vm = true) :
    exec (.viotaM vd vs2 vm) s = raiseIllegal (encode (.viotaM vd vs2 vm)) s := by
  rcases execViotaM_cases vd vs2 vm s with ⟨_, hraise⟩ | ⟨hlegal, _⟩
  · exact hraise
  · exact absurd (hlegal.symm.trans hill) Bool.false_ne_true

section VidOutcomes
variable (hv : s.vtype.vill = false)
include hv

theorem exec_vidV_eq_next (ha : vd.val % s.lmul = 0) (hr : ¬ (vm = false ∧ vd = 0 ∧ 1 < s.lmul)) :
    exec (.vidV vd vm) s = .next (s.writeGroup vd (s.vidElem vm)).clearVstart.advancePc := by
  rcases execVidV_cases vd vm s with ⟨hvill | hmis, _⟩ | ⟨_, hm, hd, hl, _⟩ | ⟨_, _, _, hnext⟩
  · exact absurd (hv.symm.trans hvill) Bool.false_ne_true
  · exact absurd ha hmis
  · exact absurd ⟨hm, hd, hl⟩ hr
  · exact hnext

/-- The base `v0` is a multiple of every LMUL, so the form that is refused is never misaligned. -/
theorem exec_vidV_eq_refused (hl : 1 < s.lmul) : exec (.vidV 0 false) s = .refused .vidMaskedGroupHoldsV0 := by
  rcases execVidV_cases 0 false s with ⟨hvill | hmis, _⟩ | ⟨_, _, _, _, hrefuse⟩ | ⟨_, _, hr, _⟩
  · exact absurd (hv.symm.trans hvill) Bool.false_ne_true
  · exact absurd (Nat.zero_mod _) hmis
  · exact hrefuse
  · exact absurd ⟨rfl, rfl, hl⟩ hr

end VidOutcomes

theorem exec_vidV_eq_raiseIllegal (h : s.vtype.vill = true ∨ vd.val % s.lmul ≠ 0) :
    exec (.vidV vd vm) s = raiseIllegal (encode (.vidV vd vm)) s := by
  rcases execVidV_cases vd vm s with ⟨_, hraise⟩ | ⟨hv, _, rfl, _, _⟩ | ⟨hv, ha, _, _⟩
  · exact hraise
  · rcases h with hvill | hmis
    · exact absurd (hv.symm.trans hvill) Bool.false_ne_true
    · exact absurd (Nat.zero_mod _) hmis
  · rcases h with hvill | hmis
    · exact absurd (hv.symm.trans hvill) Bool.false_ne_true
    · exact absurd ha hmis

/-! ## What is written to each element -/

/-- The model's switch and the statements' condition are each other's negation (D32). -/
theorem State.ite_writesTail {α : Type} (a b : α) :
    (if s.writesTail then a else b) = if s.noTailWrite then b else a := by
  by_cases ht : s.noTailWrite
  · rw [if_pos ht, (s.writesTail_eq_false_iff).2 ht, if_neg Bool.false_ne_true]
  · rw [if_neg ht, State.writesTail_eq_true ht, if_pos rfl]

/-- Up to `vl` the count of active set elements is that of the enabled ones whose bit is set. -/
theorem State.countBelow_activeSet (h0 : s.vstart.toNat = 0) (hi : i ≤ s.vl.toNat) :
    countBelow (s.activeSet vm vs2) i = (List.range i).countP (s.enabledSet vm vs2) := by
  rw [countBelow_eq_countP]
  refine List.countP_congr fun j hj => ?_
  rw [State.activeSet_eq_enabledSet h0 ((List.mem_range.1 hj).trans_le hi)]

theorem State.iotaElem_eq (h0 : s.vstart.toNat = 0) (i : Nat) :
    s.iotaElem vs2 vm i =
      if s.vl.toNat ≤ i then (if s.noTailWrite then none else some 0)
      else if s.maskOn vm i = true then some ((List.range i).countP (s.enabledSet vm vs2))
      else none := by
  rw [State.iotaElem, State.ite_writesTail]
  by_cases hl : s.vl.toNat ≤ i
  · rw [if_pos hl, if_pos hl]
  · rw [if_neg hl, if_neg hl, State.countBelow_activeSet h0 (Nat.le_of_not_le hl)]

theorem State.vidElem_eq (i : Nat) :
    s.vidElem vm i =
      if i < s.vstart.toNat then none
      else if s.vl.toNat ≤ i then (if s.noTailWrite then none else some 0)
      else if s.maskOn vm i = true then some i
      else none := by
  simp only [State.vidElem, State.prestart_eq_true_iff, State.ite_writesTail]

section Elements
variable (h : s.Inv) (hv : s.vtype.vill = false) (ha : vd.val % s.lmul = 0) (hi : i < s.vlmax)
include h hv ha hi

/-- Element `i` of the group `viota.m` has written, class by class (R111). -/
theorem State.Inv.elem_writeGroup_iotaElem (h0 : s.vstart.toNat = 0) :
    elem s.sew s.epr (s.writeGroup vd (s.iotaElem vs2 vm)).v vd i =
      if s.vl.toNat ≤ i then (if s.noTailWrite then elem s.sew s.epr s.v vd i else 0#_)
      else if s.maskOn vm i = true then BitVec.ofNat s.sew ((List.range i).countP (s.enabledSet vm vs2))
      else elem s.sew s.epr s.v vd i := by
  refine (h.elem_writeGroup hv ha (s.iotaElem vs2 vm) hi).trans ?_
  rw [State.iotaElem_eq h0]
  split_ifs <;> rfl

/-- Element `i` of the group `vid.v` has written, class by class (R112). -/
theorem State.Inv.elem_writeGroup_vidElem :
    elem s.sew s.epr (s.writeGroup vd (s.vidElem vm)).v vd i =
      if i < s.vstart.toNat then elem s.sew s.epr s.v vd i
      else if s.vl.toNat ≤ i then (if s.noTailWrite then elem s.sew s.epr s.v vd i else 0#_)
      else if s.maskOn vm i = true then BitVec.ofNat s.sew i
      else elem s.sew s.epr s.v vd i := by
  refine (h.elem_writeGroup hv ha (s.vidElem vm) hi).trans ?_
  rw [State.vidElem_eq]
  split_ifs <;> rfl

end Elements

/-! ## The two instructions (R111, R112) -/

/-- Settles O42: the source lies in the group that starts at it, and `v0` in the group that starts at `v0`. -/
theorem illFormedAlwaysRaises : Obligations.IllFormedAlwaysRaises := by
  intro i s h
  cases i with
  | viotaM vd vs2 vm =>
    refine exec_viotaM_eq_raiseIllegal (iotaIllegal_eq_true_iff.2 ?_)
    have hcause : vd = vs2 ∨ (vm = false ∧ vd = 0) := by
      simp only [Instr.wellFormed, Bool.and_eq_false_iff, Bool.or_eq_false_iff, bne_eq_false_iff_eq] at h
      exact h
    rcases hcause with rfl | hmask
    · exact .inr (.inr (.inr (.inl ⟨le_rfl, Nat.lt_add_of_pos_right s.lmul_pos⟩)))
    · exact .inr (.inr (.inr (.inr hmask)))
  | _ => cases h

/-- Settles O30: `viota.m` writes the group exactly when no cause of R131 holds. -/
theorem viotaWritesPrefixCounts : Obligations.ViotaWritesPrefixCounts := by
  intro vd vs2 vm s h
  refine ⟨fun hv ha h0 ho hm => ?_, fun hcause => exec_viotaM_eq_raiseIllegal (iotaIllegal_eq_true_iff.2 hcause),
    OpcodeRow.covers_iff.1 (covers_encode (.viotaM vd vs2 vm))⟩
  exact ⟨(s.writeGroup vd (s.iotaElem vs2 vm)).v,
    exec_viotaM_eq_next ((iotaIllegal_eq_false_iff s vd vs2 vm).2 ⟨hv, ha, h0, ho, hm⟩),
    s.writeGroup_getElem_outside vd _, fun _ hi => h.elem_writeGroup_iotaElem hv ha hi h0⟩

/-- Settles O31: the three outcomes of `vid.v`, and the elements of the group where it completes. -/
theorem vidWritesIndices : Obligations.VidWritesIndices := by
  intro vd vm s h
  refine ⟨fun hv ha hr => ?_, exec_vidV_eq_raiseIllegal, ?_, OpcodeRow.covers_iff.1 (covers_encode (.vidV vd vm))⟩
  · exact ⟨(s.writeGroup vd (s.vidElem vm)).v, exec_vidV_eq_next hv ha hr, s.writeGroup_getElem_outside vd _,
      fun _ hi => h.elem_writeGroup_vidElem hv ha hi⟩
  · rintro hv rfl rfl hl
    exact exec_vidV_eq_refused hv hl

/-! ## The width of the values (R110) -/

theorem countP_range_le (p : Nat → Bool) (n : Nat) : (List.range n).countP p ≤ n :=
  List.countP_le_length.trans_eq List.length_range

/-- Settles O32: the values of enabled body elements by O30 and O31, and neither a count nor an index below `vl`
reaches VLMAX. -/
theorem elementValuesTruncated : Obligations.ElementValuesTruncated := by
  intro vd vs2 vm s h hv ha h0 ho hm
  have hr : ¬ (vm = false ∧ vd = 0 ∧ 1 < s.lmul) := by
    rintro ⟨rfl, rfl, _⟩
    exact hm.elim Bool.false_ne_true fun hd => hd rfl
  obtain ⟨hiota, _⟩ := viotaWritesPrefixCounts vd vs2 vm s h
  obtain ⟨hvid, _⟩ := vidWritesIndices vd vm s h
  obtain ⟨w, hexecIota, _, hcount⟩ := hiota hv ha h0 ho hm
  obtain ⟨z, hexecVid, _, hindex⟩ := hvid hv ha hr
  refine ⟨_, _, hexecIota, hexecVid, fun i hi hon => ?_⟩
  have himax : i < s.vlmax := hi.trans_le (h.vlLe hv)
  have hw : (elem s.sew s.epr w vd i).toNat = (List.range i).countP (s.enabledSet vm vs2) % 2 ^ s.sew := by
    rw [hcount i himax, if_neg (Nat.not_le.2 hi), if_pos hon, BitVec.toNat_ofNat]
  have hz : (elem s.sew s.epr z vd i).toNat = i % 2 ^ s.sew := by
    rw [hindex i himax, h0, if_neg (Nat.not_lt_zero i), if_neg (Nat.not_le.2 hi), if_pos hon, BitVec.toNat_ofNat]
  refine ⟨hw, hz, fun hfit => ?_⟩
  have hlt : i < 2 ^ s.sew := himax.trans_le hfit
  exact ⟨hw.trans (Nat.mod_eq_of_lt ((countP_range_le _ i).trans_lt hlt)), hz.trans (Nat.mod_eq_of_lt hlt)⟩

/-! ## The two laws (R111, R112) -/

/-- With every bit set, as many elements are counted as lie below. -/
theorem State.countP_enabledSet_of_set (hset : ∀ j < i, mbit s.mlen (s.readV vs2) j = true) :
    (List.range i).countP (s.enabledSet true vs2) = i :=
  calc (List.range i).countP (s.enabledSet true vs2) = (List.range i).length :=
        List.countP_eq_length.2 fun j hj => hset j (List.mem_range.1 hj)
    _ = i := List.length_range

section FromElementZero
variable (h0 : s.vstart.toNat = 0)
include h0

theorem State.clearVstart_eq_self : s.clearVstart = s := by
  have hzero : s.vstart = 0#_ := BitVec.eq_of_toNat_eq h0
  rw [State.clearVstart, ← hzero]

theorem State.iotaElem_eq_vidElem (hset : ∀ j < s.vl.toNat, mbit s.mlen (s.readV vs2) j = true) :
    s.iotaElem vs2 true = s.vidElem true := by
  funext i
  rw [State.iotaElem_eq h0, State.vidElem_eq, h0, if_neg (Nat.not_lt_zero i)]
  by_cases hl : s.vl.toNat ≤ i
  · rw [if_pos hl, if_pos hl]
  · rw [State.countP_enabledSet_of_set fun j hj => hset j (hj.trans (Nat.lt_of_not_le hl))]

end FromElementZero

/-- Settles O33: the two write the same to every element, and there is no `vstart` to clear. -/
theorem vidIsIotaOfSetMask : Obligations.VidIsIotaOfSetMask := by
  intro vd vs2 s hv ha h0 ho hset
  refine ⟨_, exec_viotaM_eq_next ((iotaIllegal_eq_false_iff s vd vs2 true).2 ⟨hv, ha, h0, ho, .inl rfl⟩), ?_⟩
  rw [exec_vidV_eq_next hv ha fun ⟨hm, _⟩ => Bool.false_ne_true hm.symm, ← State.iotaElem_eq_vidElem h0 hset,
    State.clearVstart_eq_self (s := s.writeGroup vd (s.iotaElem vs2 true)) h0]

theorem toNat_readX_advancePc_writeX_self {rd : RegNum} {x : BitVec s.cfg.xlen} (hrd : rd ≠ 0) :
    ((s.writeX rd x).advancePc.readX rd).toNat = x.toNat :=
  congrArg BitVec.toNat ((readX_writeX s rd rd x).trans (if_pos ⟨rfl, hrd⟩))

/-- A population count is at most `vl`, so it fits the register `vl` fits (R90). -/
theorem State.toNat_ofNat_popCount (s : State) (vm : Bool) (vs2 : RegNum) :
    (BitVec.ofNat s.cfg.xlen (s.popCount vm vs2)).toNat = s.popCount vm vs2 :=
  Nat.mod_eq_of_lt ((countBelow_le _ _).trans_lt s.vl.isLt)

/-- A count over one index more. -/
theorem countP_range_succ (p : Nat → Bool) (n : Nat) :
    (List.range (n + 1)).countP p = (List.range n).countP p + (p n).toNat := by
  rw [← countBelow_eq_countP, countBelow, countBelow_eq_countP]

/-- Settles O34: the count up to the last body element and that element's bit make the whole count, which fits `x[rd]`
because it is at most `vl`. -/
theorem iotaRunningCountIsPopcount : Obligations.IotaRunningCountIsPopcount := by
  intro vd vs2 rd s h hv ha h0 ho hpos hrd
  obtain ⟨hiota, _⟩ := viotaWritesPrefixCounts vd vs2 true s h
  obtain ⟨w, hexecIota, _, hcount⟩ := hiota hv ha h0 ho (.inl rfl)
  refine ⟨w, _, hexecIota, maskToScalar_eq_next hv h0, ?_⟩
  obtain ⟨n, hn⟩ := Nat.exists_eq_add_of_le' hpos
  have hlast : elem s.sew s.epr w vd n = BitVec.ofNat s.sew ((List.range n).countP (s.enabledSet true vs2)) := by
    have hlt : n < s.vl.toNat := by omega
    rw [hcount n (hlt.trans_le (h.vlLe hv)), if_neg (Nat.not_le.2 hlt), Bool.true_or, if_pos rfl]
  have hwhole : s.popCount true vs2 =
      (List.range n).countP (s.enabledSet true vs2) + (s.enabledSet true vs2 n).toNat := by
    rw [State.popCount_eq_countP h0, hn, countP_range_succ]
  rw [hn, Nat.add_sub_cancel, hlast, toNat_readX_advancePc_writeX_self hrd, s.toNat_ofNat_popCount, hwhole,
    BitVec.ofNat_add]
  rfl

end Sys2Proof.Machine
end

section
/-! PROOFS. The family of 60_exceptions.md: when an instruction and a step raise the exception (R130 to R133), what trap
entry writes (R133), resuming at `vstart` (R134, R135) and the mode (R138). -/

namespace Sys2Proof.Machine

variable {s t : State}

/-! ## Trap entry (R132, R133) -/

/-- Settles O38: trap entry writes the five fields, and its target is `mtvec` rounded down to a multiple of 4. -/
theorem trapEntryState : Obligations.TrapEntryState := by
  intro s inst b ht
  exact ⟨s.trapTarget, raiseIllegal_machineTrap ht inst, s.trapTarget_toNat⟩

/-! ## The causes of the exception (R130, R131) -/

section MaskLogical
variable {inst : Word} {op : Bool → Bool → Bool} {vd vs2 vs1 : RegNum}

theorem maskLogical_eq_next (hv : s.vtype.vill = false) :
    maskLogical inst op vd vs2 vs1 s = .next (s.writeMask vd (s.logicalBit op vs2 vs1)).clearVstart.advancePc := by
  rcases maskLogical_cases inst op vd vs2 vs1 s with ⟨hvill, _⟩ | ⟨_, hnext⟩
  · exact absurd (hv.symm.trans hvill) Bool.false_ne_true
  · exact hnext

theorem maskLogical_eq_raiseIllegal (hvill : s.vtype.vill = true) :
    maskLogical inst op vd vs2 vs1 s = raiseIllegal inst s := by
  rcases maskLogical_cases inst op vd vs2 vs1 s with ⟨_, hraise⟩ | ⟨hv, _⟩
  · exact hraise
  · exact absurd (hv.symm.trans hvill) Bool.false_ne_true

end MaskLogical

section Causes
variable (ht : s.cfg.trapModel = .terminalFault)
include ht

/-- An outcome that is the exception under a cause, and without the cause no fault, is a fault exactly under it. -/
theorem exists_fault_iff {inst : Word} {cause : Prop} {o : Host.Outcome State Fault Refusal}
    (hcause : cause → o = raiseIllegal inst s) (hother : ¬ cause → ∀ f, o ≠ .fault f) :
    (∃ f, o = .fault f) ↔ cause := by
  constructor
  · rintro ⟨f, hf⟩
    by_contra hn
    exact hother hn f hf
  · exact fun hc => ⟨_, (hcause hc).trans (raiseIllegal_terminal ht inst)⟩

theorem maskLogical_faults_iff {inst : Word} {op : Bool → Bool → Bool} {vd vs2 vs1 : RegNum} :
    (∃ f, maskLogical inst op vd vs2 vs1 s = .fault f) ↔ s.vtype.vill = true := by
  refine exists_fault_iff ht maskLogical_eq_raiseIllegal fun hn f => ?_
  simp [maskLogical_eq_next (Bool.eq_false_iff.2 hn)]

theorem maskToScalar_faults_iff {inst : Word} {rd : RegNum} {w : BitVec s.cfg.xlen} :
    (∃ f, maskToScalar inst rd s w = .fault f) ↔ s.vtype.vill = true ∨ s.vstart.toNat ≠ 0 := by
  refine exists_fault_iff ht maskToScalar_eq_raiseIllegal fun hn f => ?_
  obtain ⟨hv, h0⟩ := not_or.1 hn
  simp [maskToScalar_eq_next (Bool.eq_false_iff.2 hv) (not_not.1 h0)]

theorem setFirst_faults_iff {inst : Word} {kind : FirstKind} {vd vs2 : RegNum} {vm : Bool} :
    (∃ f, setFirst inst kind vd vs2 vm s = .fault f) ↔ s.vtype.vill = true ∨ s.vstart.toNat ≠ 0 := by
  refine exists_fault_iff ht setFirst_eq_raiseIllegal fun hn f => ?_
  obtain ⟨hv, h0⟩ := not_or.1 hn
  simp [setFirst_eq_next (Bool.eq_false_iff.2 hv) (not_not.1 h0)]

theorem exec_viotaM_faults_iff {vd vs2 : RegNum} {vm : Bool} :
    (∃ f, exec (.viotaM vd vs2 vm) s = .fault f) ↔ s.iotaIllegal vd vs2 vm = true := by
  refine exists_fault_iff ht exec_viotaM_eq_raiseIllegal fun hn f => ?_
  simp [exec_viotaM_eq_next (Bool.eq_false_iff.2 hn)]

/-- The refused form of `vid.v` is no fault (D16 (c)). -/
theorem exec_vidV_faults_iff {vd : RegNum} {vm : Bool} :
    (∃ f, exec (.vidV vd vm) s = .fault f) ↔ s.vtype.vill = true ∨ vd.val % s.lmul ≠ 0 := by
  refine exists_fault_iff ht exec_vidV_eq_raiseIllegal fun hn f => ?_
  rcases execVidV_cases vd vm s with ⟨hcause, _⟩ | ⟨_, _, _, _, e⟩ | ⟨_, _, _, e⟩
  · exact absurd hcause hn
  · simp [exec, e]
  · simp [exec, e]

end Causes

/-- Settles O36: each family faults on its own causes, and what a fault records is the same for all. -/
theorem illegalExactlyOnCauses : Obligations.IllegalExactlyOnCauses := by
  intro s ht
  refine ⟨fun i => ⟨?_, fun _ => exec_fault⟩,
    fun w k hf hd => (step_of_fetch_reserved hf hd).trans (raiseIllegal_terminal ht w)⟩
  cases i with
  | vmandnotMm | vmandMm | vmorMm | vmxorMm | vmornotMm | vmnandMm | vmnorMm | vmxnorMm =>
    exact (maskLogical_faults_iff ht).trans (iff_of_eq (or_false _)).symm
  | vpopcM | vfirstM => exact maskToScalar_faults_iff ht
  | vmsbfM | vmsofM | vmsifM => exact setFirst_faults_iff ht
  | viotaM => exact (exec_viotaM_faults_iff ht).trans iotaIllegal_eq_true_iff
  | vidV => exact exec_vidV_faults_iff ht

/-! ## When a step raises (R130, R133, R155) -/

theorem State.raises_eq_true_iff :
    s.raises = true ↔ ∃ pc w, step s.underTerminal = .fault (.illegalInstruction pc w) := by
  unfold State.raises
  split <;> simp_all

/-- The fetch stops with its own faults, which are not the exception (R43). -/
theorem fetch_ne_illegalInstruction (pc : Nat) (w : Word) : s.fetch ≠ .error (.illegalInstruction pc w) := by
  unfold State.fetch
  split_ifs
  · simp
  · split <;> simp

/-- A step that raises is the exception on the fetched word; one that does not neither ends in the exception's fault
nor gives a next state but by completing an instruction. -/
theorem step_raises_cases (s : State) :
    (s.raises = true ∧ ∃ w, s.fetch = .ok w ∧ step s = raiseIllegal w s) ∨
    (s.raises = false ∧ (∀ pc w, step s ≠ .fault (.illegalInstruction pc w)) ∧
      ∀ t, step s = .next t → CompletesIn s t) := by
  rw [← Bool.not_eq_true, State.raises_eq_true_iff]
  rcases step_cases s with ⟨f, hf, e⟩ | ⟨w, i, hf, hd, e⟩ | ⟨w, k, hf, hd, e⟩ | ⟨w, hf, hd, e⟩
  · have hu : step s.underTerminal = .fault f := by simp [step, hf]
    have hne : ∀ pc w, f ≠ .illegalInstruction pc w := fun pc w h => fetch_ne_illegalInstruction pc w (h ▸ hf)
    exact .inr ⟨by simp [hu, hne], by simp [e, hne], by simp [e]⟩
  · have hu : step s.underTerminal = exec i s.underTerminal := step_of_fetch hf hd
    rw [hu, e]
    rcases exec_underTerminal_cases i s with ⟨hraise, e'⟩ | ⟨r, hrefuse, e'⟩ | ⟨t, hnext, hc, e'⟩
    · exact .inl ⟨⟨_, _, e'⟩, w, hf, decode_eq_instr_iff.1 hd ▸ hraise⟩
    · exact .inr ⟨by simp [e'], by simp [hrefuse], by simp [hrefuse]⟩
    · refine .inr ⟨by simp [e'], by simp [hnext], fun u hu => ?_⟩
      cases hnext.symm.trans hu
      exact hc
  · have hu : step s.underTerminal = raiseIllegal w s.underTerminal := step_of_fetch_reserved hf hd
    exact .inl ⟨⟨_, _, hu.trans (raiseIllegal_terminal rfl w)⟩, w, hf, e⟩
  · have hu : step s.underTerminal = .refused (.notInSpec w) := step_of_fetch_notInSpec hf hd
    exact .inr ⟨by simp [hu], by simp [e], by simp [e]⟩

/-- Settles O47: read off the two cases, the terminal exception being a fault. -/
theorem stepRaises : Obligations.StepRaises := by
  intro s
  rcases step_raises_cases s with ⟨hr, w, hf, e⟩ | ⟨hr, hne, hc⟩
  · refine ⟨fun ht => iff_of_true hr ⟨_, w, e.trans (raiseIllegal_terminal ht w)⟩, fun _ => ⟨w, hf, e⟩, fun hn => ?_⟩
    exact absurd (hn.symm.trans hr) Bool.false_ne_true
  · refine ⟨fun _ => iff_of_false (by simp [hr]) (by simpa using hne), fun hn => ?_, fun _ t h => ?_⟩
    · exact absurd (hr.symm.trans hn) Bool.false_ne_true
    · have hcomp := hc t h
      exact ⟨hcomp.pc_toNat, hcomp.priv, hcomp.mepc_toNat, hcomp.mcause_toNat, hcomp.mtval_toNat⟩

/-! ## The mode (R138) -/

/-- The state in another mode. -/
def State.withPriv (s : State) (p : Priv) : State := { s with priv := p }

/-- The outcome with another mode in its next state, if it has one. -/
def outcomeWithPriv (p : Priv) : Host.Outcome State Fault Refusal → Host.Outcome State Fault Refusal
  | .next t => .next (t.withPriv p)
  | .fault f => .fault f
  | .refused r => .refused r

section WithPriv
variable {p : Priv} (ht : s.cfg.trapModel = .terminalFault)
include ht

theorem raiseIllegal_withPriv (inst : Word) :
    raiseIllegal inst (s.withPriv p) = outcomeWithPriv p (raiseIllegal inst s) := by
  rw [raiseIllegal_terminal ht]
  exact raiseIllegal_terminal (s := s.withPriv p) ht inst

/-- An instruction whose check and whose outcome past the check do not look at the mode. -/
theorem exec_withPriv_of_check {i : Instr} (raises : Bool) {o : Host.Outcome State Fault Refusal}
    (h : exec i s = if raises then raiseIllegal (encode i) s else o)
    (hp : exec i (s.withPriv p) = if raises then raiseIllegal (encode i) (s.withPriv p) else outcomeWithPriv p o) :
    exec i (s.withPriv p) = outcomeWithPriv p (exec i s) := by
  rw [h, hp]
  cases raises
  · rfl
  · exact raiseIllegal_withPriv ht (encode i)

/-- Another mode changes nothing about an instruction but the mode of its next state. -/
theorem exec_withPriv (i : Instr) : exec i (s.withPriv p) = outcomeWithPriv p (exec i s) := by
  cases i with
  | vmandnotMm | vmandMm | vmorMm | vmxorMm | vmornotMm | vmnandMm | vmnorMm | vmxnorMm =>
    exact exec_withPriv_of_check ht s.vtype.vill rfl rfl
  | vpopcM | vfirstM | vmsbfM | vmsofM | vmsifM =>
    exact exec_withPriv_of_check ht (s.vtype.vill || s.vstartNonzero) rfl rfl
  | viotaM vd vs2 vm => exact exec_withPriv_of_check ht (s.iotaIllegal vd vs2 vm) rfl rfl
  | vidV vd vm =>
    exact exec_withPriv_of_check ht (s.vtype.vill || s.groupMisaligned vd) rfl
      (by rw [apply_ite (outcomeWithPriv p)]; rfl)

/-- Under the terminal TrapModel only completion gives a next state. -/
theorem exec_next_completesIn {i : Instr} (h : exec i s = .next t) : CompletesIn s t := by
  rcases exec_cases i s with hraise | ⟨_, hrefuse⟩ | ⟨_, u, hnext, hu⟩
  · exact absurd (hraise.symm.trans h) (raiseIllegal_ne_next ht _)
  · cases hrefuse.symm.trans h
  · cases hnext.symm.trans h
    exact hu

end WithPriv

/-- Settles O41: the outcome does not look at the mode, and a completed instruction leaves it (D25). -/
theorem instructionsIgnoreMode : Obligations.InstructionsIgnoreMode := by
  intro i s p ht
  have hp : exec i { s with priv := p } = outcomeWithPriv p (exec i s) := exec_withPriv ht i
  cases h : exec i s <;> rw [h] at hp
  case next t => exact ⟨(exec_next_completesIn ht h).priv, hp⟩
  case fault f => exact hp
  case refused r => exact hp

/-! ## Resuming at `vstart` (R134, R135) -/

/-- The state that a suspended instruction leaves: other vector registers, and `vstart` at the element to resume at. -/
def State.suspended (s : State) (v : Vector (BitVec s.cfg.vlen) 32) (k : BitVec s.cfg.xlen) : State :=
  { s with v := v, vstart := k }

section Suspended
variable {k : BitVec s.cfg.xlen}

theorem State.Inv.suspended (h : s.Inv) (v : Vector (BitVec s.cfg.vlen) 32) : (s.suspended v k).Inv := { h with }

/-- Writing mask register `vd` resumes: if the elements below `k` hold their results and are left, and those from `k` up
are written as in the whole run or hold their old values, `vd` ends with what the whole run leaves. -/
theorem State.Inv.writeMask_suspended_v (h : s.Inv) (hv : s.vtype.vill = false) {vd : RegNum} {u : BitVec s.cfg.vlen}
    {f g : Nat → Option Bool}
    (hbelow : ∀ i < k.toNat, g i = none ∧ melem s.mlen u i = melem s.mlen (s.maskResult (s.readV vd) f) i)
    (hfrom : ∀ i < s.vlmax, k.toNat ≤ i →
      g i = f i ∧ (f i = none → melem s.mlen u i = melem s.mlen (s.readV vd) i)) :
    ((s.suspended (s.v.set vd.val u) k).writeMask vd g).v = (s.writeMask vd f).v := by
  have hreg : s.maskResult u g = s.maskResult (s.readV vd) f := by
    refine h.eq_of_melem_eq hv fun i hi => ?_
    rw [s.melem_maskResult u g hi]
    rcases Nat.lt_or_ge i k.toNat with hik | hik
    · obtain ⟨hnone, hresult⟩ := hbelow i hik
      simp only [hnone, hresult]
    · obtain ⟨hsame, hold⟩ := hfrom i hi hik
      rw [s.melem_maskResult _ f hi, hsame]
      cases hfi : f i with
      | none => exact hold hfi
      | some b => rfl
  have hread : (s.suspended (s.v.set vd.val u) k).readV vd = u := Vector.getElem_set_self _
  rw [writeMask_v, hread]
  exact (Vector.set_set _ _).trans (congrArg (s.v.set vd.val · vd.isLt) hreg)

/-- Writing the register group `vd` resumes in the same way, the registers outside the group being the old ones. -/
theorem State.Inv.writeGroup_suspended_v (h : s.Inv) (hv : s.vtype.vill = false) {vd : RegNum}
    (ha : vd.val % s.lmul = 0) {u : Vector (BitVec s.cfg.vlen) 32} {f g : Nat → Option Nat}
    (houtside : ∀ n : RegNum, ¬ (vd.val ≤ n.val ∧ n.val < vd.val + s.lmul) → u[n.val] = s.v[n.val])
    (hbelow : ∀ i < k.toNat, g i = none ∧ elem s.sew s.epr u vd i = elem s.sew s.epr (s.writeGroup vd f).v vd i)
    (hfrom : ∀ i < s.vlmax, k.toNat ≤ i →
      g i = f i ∧ (f i = none → elem s.sew s.epr u vd i = elem s.sew s.epr s.v vd i)) :
    ((s.suspended u k).writeGroup vd g).v = (s.writeGroup vd f).v := by
  refine h.regs_eq_of_elem_eq (vd := vd) hv (fun n hn => ?_) fun i hi => ?_
  · exact ((s.suspended u k).writeGroup_getElem_outside vd g n hn).trans
      ((houtside n hn).trans (s.writeGroup_getElem_outside vd f n hn).symm)
  · refine ((h.suspended (k := k) u).elem_writeGroup hv ha g hi).trans ?_
    rcases Nat.lt_or_ge i k.toNat with hik | hik
    · obtain ⟨hnone, hresult⟩ := hbelow i hik
      rw [hnone]
      exact hresult
    · obtain ⟨hsame, hold⟩ := hfrom i hi hik
      refine Eq.trans ?_ (h.elem_writeGroup hv ha f hi).symm
      rw [hsame]
      cases hfi : f i with
      | none => exact hold hfi
      | some e => rfl

end Suspended

/-! ## The mask-logical instructions resume (R70, R134) -/

section LogicalResumes
variable {p : (RegNum → RegNum → RegNum → Instr) × (Bool → Bool → Bool) × Word}
  {op : Bool → Bool → Bool} {vd vs2 vs1 : RegNum} {k : BitVec s.cfg.xlen} {u : BitVec s.cfg.vlen}

theorem State.logicalBit_suspended_of_lt {v : Vector (BitVec s.cfg.vlen) 32} {i : Nat} (hi : i < k.toNat) :
    (s.suspended v k).logicalBit op vs2 vs1 i = none := by
  rw [State.logicalBit_eq]
  exact if_pos hi

/-- From element `k` up the same is written, if the suspended state's sources hold the same bits there. -/
theorem State.logicalBit_suspended_of_le (h0 : s.vstart.toNat = 0) {v : Vector (BitVec s.cfg.vlen) 32} {i : Nat}
    (hi : k.toNat ≤ i)
    (hs2 : mbit s.mlen v[vs2.val] i = mbit s.mlen (s.readV vs2) i)
    (hs1 : mbit s.mlen v[vs1.val] i = mbit s.mlen (s.readV vs1) i) :
    (s.suspended v k).logicalBit op vs2 vs1 i = s.logicalBit op vs2 vs1 i := by
  have hpre : ¬ i < s.vstart.toNat := by omega
  rw [State.logicalBit_eq, State.logicalBit_eq, if_neg hpre, ← hs2, ← hs1]
  exact if_neg (Nat.not_lt.2 hi)

/-- With `vstart` = 0 the only elements left alone are those of the unwritten tail (D32). -/
theorem State.logicalBit_ne_none (h0 : s.vstart.toNat = 0) (ht : ¬ s.noTailWrite) (i : Nat) :
    s.logicalBit op vs2 vs1 i ≠ none := by
  rw [State.logicalBit_eq, h0, State.writesTail_eq_true ht]
  split_ifs <;> simp_all

theorem State.mbit_eq_getLsbD_melem (w : BitVec s.cfg.vlen) (i : Nat) :
    mbit s.mlen w i = (melem s.mlen w i).getLsbD 0 := by
  simp [mbit, melem, s.mlen_pos]

theorem State.set_getElem_of_ne {n : RegNum} (hn : n ≠ vd) : (s.v.set vd.val u)[n.val] = s.readV n :=
  (readV_writeV s vd n u).trans (if_neg hn)

/-- A source register, `vd` or another one, holds its old bit in an element in which `u` agrees with the old `vd`. -/
theorem State.mbit_set_of_melem_eq {i : Nat} (hi : melem s.mlen u i = melem s.mlen (s.readV vd) i) (n : RegNum) :
    mbit s.mlen (s.v.set vd.val u)[n.val] i = mbit s.mlen (s.readV n) i := by
  by_cases hn : n = vd
  · subst hn
    rw [Vector.getElem_set_self, State.mbit_eq_getLsbD_melem, hi, ← State.mbit_eq_getLsbD_melem]
  · rw [State.set_getElem_of_ne hn]

/-- The next state of a mask-logical instruction: `vd` written, `vstart` 0, the pc advanced. -/
theorem exec_logical_eq_next (hp : p ∈ logicalRules) (hv : s.vtype.vill = false) :
    exec (p.1 vd vs2 vs1) s =
      .next (s.suspended (s.writeMask vd (s.logicalBit p.2.1 vs2 vs1)).v 0#_).advancePc :=
  (exec_of_mem_logicalRules vd vs2 vs1 s p hp).trans (maskLogical_eq_next hv)

/-- A mask-logical instruction resumes, if from element `k` up the sources hold the old bits and what is not written has
its old value. -/
theorem State.Inv.exec_logical_suspended (h : s.Inv) (hp : p ∈ logicalRules) (hv : s.vtype.vill = false)
    (h0 : s.vstart.toNat = 0)
    (hbelow : ∀ i < k.toNat,
      melem s.mlen u i = melem s.mlen (s.maskResult (s.readV vd) (s.logicalBit p.2.1 vs2 vs1)) i)
    (hfrom : ∀ i < s.vlmax, k.toNat ≤ i →
      mbit s.mlen (s.v.set vd.val u)[vs2.val] i = mbit s.mlen (s.readV vs2) i ∧
      mbit s.mlen (s.v.set vd.val u)[vs1.val] i = mbit s.mlen (s.readV vs1) i ∧
      (s.logicalBit p.2.1 vs2 vs1 i = none → melem s.mlen u i = melem s.mlen (s.readV vd) i)) :
    exec (p.1 vd vs2 vs1) (s.suspended (s.v.set vd.val u) k) = exec (p.1 vd vs2 vs1) s := by
  have hregs := h.writeMask_suspended_v hv
    (g := (s.suspended (s.v.set vd.val u) k).logicalBit p.2.1 vs2 vs1)
    (fun i hi => ⟨State.logicalBit_suspended_of_lt hi, hbelow i hi⟩)
    (fun i hi hk => by
      obtain ⟨hs2, hs1, hold⟩ := hfrom i hi hk
      exact ⟨State.logicalBit_suspended_of_le h0 hk hs2 hs1, hold⟩)
  rw [exec_logical_eq_next hp hv, exec_logical_eq_next (s := s.suspended (s.v.set vd.val u) k) hp hv]
  exact congrArg (fun v => Host.Outcome.next (s.suspended v 0#_).advancePc) hregs

end LogicalResumes

/-- Settles O45: from element `k` up every register, the destination included, holds its old values. -/
theorem partlyRunMaskLogicalResumes : Obligations.PartlyRunMaskLogicalResumes := by
  intro p hp vd vs2 vs1 s h hv h0
  refine ⟨_, exec_logical_eq_next hp hv, fun k u _ hbelow hfrom => ?_⟩
  refine h.exec_logical_suspended hp hv h0 hbelow fun i hi hk => ?_
  have hold := hfrom i hi hk
  exact ⟨State.mbit_set_of_melem_eq hold vs2, State.mbit_set_of_melem_eq hold vs1, fun _ => hold⟩

/-- Settles O23: the sources are not the destination, and with `vl` > 0 every element from `k` up is written. -/
theorem maskLogicalResumesAtVstart : Obligations.MaskLogicalResumesAtVstart := by
  intro p hp vd vs2 vs1 s hd2 hd1 h hv h0 hl
  refine ⟨_, exec_logical_eq_next hp hv, fun k u _ hbelow => ?_⟩
  refine h.exec_logical_suspended hp hv h0 hbelow fun i hi hk => ?_
  have ht : ¬ s.noTailWrite := fun ht => hl.ne' ht.1
  rw [State.set_getElem_of_ne hd2.symm, State.set_getElem_of_ne hd1.symm]
  exact ⟨rfl, rfl, fun hnone => absurd hnone (State.logicalBit_ne_none h0 ht i)⟩

/-! ## `vid.v` resumes (R112, R134) -/

section VidResumes
variable {vd : RegNum} {vm : Bool} {k : BitVec s.cfg.xlen} {u : Vector (BitVec s.cfg.vlen) 32} {i : Nat}

theorem State.vidElem_suspended_of_lt (hi : i < k.toNat) : (s.suspended u k).vidElem vm i = none := by
  rw [State.vidElem_eq]
  exact if_pos hi

/-- From element `k` up the same is written, if the suspended state's mask enables the same elements there. -/
theorem State.vidElem_suspended_of_le (h0 : s.vstart.toNat = 0) (hi : k.toNat ≤ i)
    (hmask : (s.suspended u k).maskOn vm i = s.maskOn vm i) :
    (s.suspended u k).vidElem vm i = s.vidElem vm i := by
  have hpre : ¬ i < s.vstart.toNat := by omega
  rw [State.vidElem_eq, State.vidElem_eq, if_neg hpre, hmask]
  exact if_neg (Nat.not_lt.2 hi)

/-- In a group of one register an element and the mask element of the same index begin at the same bit (R6). -/
theorem State.Inv.mbit_eq_getLsbD_elem (h : s.Inv) (hv : s.vtype.vill = false) (hl : s.lmul = 1) (hi : i < s.vlmax)
    (v : Vector (BitVec s.cfg.vlen) 32) (n : RegNum) :
    mbit s.mlen v[n.val] i = (elem s.sew s.epr v n i).getLsbD 0 := by
  have hi' : i < s.epr := by rwa [h.vlmax_eq hv, hl, Nat.one_mul] at hi
  have hm : s.mlen = s.sew := by rw [← s.mlen_mul_lmul, hl, Nat.mul_one]
  simp [mbit, elem, hm, Nat.div_eq_of_lt hi', Nat.mod_eq_of_lt hi', s.sew_pos]

/-- The mask register is outside the group, or it is the whole group and holds its old elements from `k` up, or the
instruction is unmasked. -/
theorem State.Inv.maskOn_suspended (h : s.Inv) (hv : s.vtype.vill = false)
    (hr : ¬ (vm = false ∧ vd = 0 ∧ 1 < s.lmul))
    (houtside : ∀ n : RegNum, ¬ (vd.val ≤ n.val ∧ n.val < vd.val + s.lmul) → u[n.val] = s.v[n.val])
    (hi : i < s.vlmax) (hold : elem s.sew s.epr u vd i = elem s.sew s.epr s.v vd i) :
    (s.suspended u k).maskOn vm i = s.maskOn vm i := by
  cases vm with
  | true => rfl
  | false =>
    have hbit : mbit s.mlen u[(0 : RegNum).val] i = mbit s.mlen s.v[(0 : RegNum).val] i := by
      by_cases hd : vd = 0
      · subst hd
        have hl : s.lmul = 1 := by
          have := s.lmul_pos
          have : ¬ 1 < s.lmul := fun hl => hr ⟨rfl, rfl, hl⟩
          omega
        rw [h.mbit_eq_getLsbD_elem hv hl hi, h.mbit_eq_getLsbD_elem hv hl hi, hold]
      · have hpos : ¬ vd.val ≤ (0 : RegNum).val := fun hle => hd (Fin.le_zero_iff.1 hle)
        rw [houtside 0 fun hin => hpos hin.1]
    exact hbit

end VidResumes

/-- Settles O46: from element `k` up the group and the mask hold their old values, and the group is the whole of what
is written. -/
theorem partlyRunVidResumes : Obligations.PartlyRunVidResumes := by
  intro vd vm s h hv ha hr h0
  refine ⟨(s.writeGroup vd (s.vidElem vm)).v, exec_vidV_eq_next hv ha hr, fun k u _ houtside hbelow hfrom => ?_⟩
  have hregs : ((s.suspended u k).writeGroup vd ((s.suspended u k).vidElem vm)).v =
      (s.writeGroup vd (s.vidElem vm)).v :=
    h.writeGroup_suspended_v hv ha houtside
      (fun i hi => ⟨State.vidElem_suspended_of_lt hi, hbelow i hi⟩)
      (fun i hi hk => by
        have hold := hfrom i hi hk
        exact ⟨State.vidElem_suspended_of_le h0 hk (h.maskOn_suspended hv hr houtside hi hold), fun _ => hold⟩)
  refine (exec_vidV_eq_next (s := s.suspended u k) hv ha hr).trans (Eq.trans ?_ (exec_vidV_eq_next hv ha hr).symm)
  exact congrArg (fun v => Host.Outcome.next (s.suspended v 0#_).advancePc) hregs

end Sys2Proof.Machine
end

section
/-! PROOFS. The family of 70_reset_and_hazards.md: the runs that come to their end, said step by step without the fuel,
and that such a run has one end state (R155). -/

namespace Sys2Proof.Machine

section Runs
variable {s t u : State} {endPc : Nat}

/-- A run that starts at the end address ends there at once, however many steps it is given (R155). -/
theorem completes_iff_of_atEnd (h : s.AtEnd endPc) : Completes s endPc t ↔ t = s := by
  simp only [Completes, runTo_atEnd h, exists_const, Option.some.injEq, eq_comm]

/-- With no steps left a run has an end state only at the end address. -/
theorem runTo_zero_eq_none (h : ¬ s.AtEnd endPc) : s.runTo endPc 0 = none := if_neg h

/-- Elsewhere a run is its first step, which raises nothing and is not refused, and then the run from the next state. -/
theorem completes_iff_of_not_atEnd (h : ¬ s.AtEnd endPc) :
    Completes s endPc t ↔ s.raises = false ∧ ∃ u, step s = .next u ∧ Completes u endPc t := by
  constructor
  · rintro ⟨fuel, hrun⟩
    cases fuel with
    | zero => simp [runTo_zero_eq_none h] at hrun
    | succ fuel =>
      obtain ⟨hraises, u, hstep, hrest⟩ := (runTo_succ_eq_some_iff h fuel t).1 hrun
      exact ⟨hraises, u, hstep, fuel, hrest⟩
  · rintro ⟨hraises, u, hstep, fuel, hrest⟩
    exact ⟨fuel + 1, (runTo_succ_eq_some_iff h fuel t).2 ⟨hraises, u, hstep, hrest⟩⟩

/-- Induction along a run that ends in `t`: what holds at the end, and before a step whenever it holds after it, holds
at the start. The fuel is used here and in no later proof. -/
theorem Completes.induction_on {motive : State → Prop} (hrun : Completes s endPc t)
    (atEnd : t.AtEnd endPc → motive t)
    (beforeStep : ∀ s u, ¬ s.AtEnd endPc → step s = .next u → motive u → motive s) : motive s := by
  have endsAtOnce {s : State} (h : s.AtEnd endPc) (hrun : Completes s endPc t) : motive s := by
    obtain rfl := (completes_iff_of_atEnd h).1 hrun
    exact atEnd h
  obtain ⟨fuel, hrun⟩ := hrun
  induction fuel generalizing s with
  | zero =>
    by_cases h : s.AtEnd endPc
    · exact endsAtOnce h ⟨0, hrun⟩
    · simp [runTo_zero_eq_none h] at hrun
  | succ fuel ih =>
    by_cases h : s.AtEnd endPc
    · exact endsAtOnce h ⟨fuel + 1, hrun⟩
    · obtain ⟨_, u, hstep, hrest⟩ := (runTo_succ_eq_some_iff h fuel t).1 hrun
      exact beforeStep s u h hstep (ih hrest)

/-- A run ends nowhere but at the end address. -/
theorem Completes.atEnd (hrun : Completes s endPc t) : t.AtEnd endPc :=
  hrun.induction_on (motive := fun _ => t.AtEnd endPc) id fun _ _ _ _ h => h

/-- The end state is unique: a second run from the same state takes the same steps, since a step has one outcome. -/
theorem Completes.unique (ht : Completes s endPc t) (hu : Completes s endPc u) : t = u := by
  refine ht.induction_on (motive := fun s => Completes s endPc u → t = u) ?atEnd ?beforeStep hu
  case atEnd => exact fun h hu => ((completes_iff_of_atEnd h).1 hu).symm
  case beforeStep =>
    intro s v h hstep ih hu
    obtain ⟨_, v', hstep', hrest⟩ := (completes_iff_of_not_atEnd h).1 hu
    obtain rfl : v = v' := Host.Outcome.next.inj (hstep.symm.trans hstep')
    exact ih hrest

end Runs

/-- Settles O48: the two clauses about the first step give the induction along a run, and the induction
gives its one end state. -/
theorem runEndsAtFirstArrival : Obligations.RunEndsAtFirstArrival := fun _ _ =>
  ⟨fun _ _ ht hu => ⟨ht.unique hu, ht.atEnd⟩,
    fun h _ => completes_iff_of_atEnd h,
    fun h _ => completes_iff_of_not_atEnd h⟩

end Sys2Proof.Machine
end

section
/-! PROOFS. The family of 92_eei_decisions.md and 93_implementation_defined.md: with `vl` = 0 and the switch
VL0_WRITES_TAIL off no element is selected for writing, so the vector registers stay as they are (D32, U8). -/

namespace Sys2Proof.Machine

variable {s : State} {vd vs2 vs1 : RegNum} {vm : Bool}

/-! ## Writing no element (R10, R25) -/

theorem State.maskResult_of_forall_none {f : Nat → Option Bool} (hf : ∀ i, f i = none) (old : BitVec s.cfg.vlen) :
    s.maskResult old f = old := by
  ext k hk
  simp [← BitVec.getLsbD_eq_getElem, State.maskResult, hf, hk]

theorem State.groupResult_of_forall_none {g : Nat → Option Nat} (hg : ∀ i, g i = none) (r : Nat)
    (old : BitVec s.cfg.vlen) : s.groupResult g r old = old := by
  ext k hk
  simp [← BitVec.getLsbD_eq_getElem, State.groupResult, hg, hk]

/-- The destination register is written back with the value it had. -/
theorem State.writeMask_of_forall_none {f : Nat → Option Bool} (hf : ∀ i, f i = none) : s.writeMask vd f = s := by
  have hregs : s.v.set vd.val (s.readV vd) = s.v := Vector.set_getElem_self vd.isLt
  rw [State.writeMask, State.maskResult_of_forall_none hf, State.writeV, hregs]

/-- Each register of the group is written back with the value it had. -/
theorem State.writeGroup_of_forall_none {g : Nat → Option Nat} (hg : ∀ i, g i = none) : s.writeGroup vd g = s := by
  have hregs : updateRegs (s.groupResult g) vd.val s.lmul s.v = s.v := by
    ext n hn : 1
    rw [s.writeGroup_getElem vd g n hn, State.groupResult_of_forall_none hg, ite_self]
  rw [State.writeGroup, hregs]

/-! ## What is selected with `vl` = 0 and the switch off (D32) -/

section NoTailWrite
variable (ht : s.noTailWrite)
include ht

theorem State.vl_le_of_noTailWrite (i : Nat) : s.vl.toNat ≤ i := ht.1.trans_le (Nat.zero_le i)

/-- Every element is prestart or in the tail that is not written. -/
theorem State.logicalBit_eq_none (op : Bool → Bool → Bool) (i : Nat) : s.logicalBit op vs2 vs1 i = none := by
  rw [State.logicalBit_eq, if_neg (Nat.not_lt.2 (State.vl_le_of_noTailWrite ht i)), State.ite_writesTail,
    if_pos ht, ite_self]

theorem State.setFirstBit_eq_none (kind : FirstKind) (i : Nat) : s.setFirstBit kind vs2 vm i = none := by
  rw [State.setFirstBit_tail (State.vl_le_of_noTailWrite ht i), if_pos ht]

theorem State.iotaElem_eq_none (h0 : s.vstart.toNat = 0) (i : Nat) : s.iotaElem vs2 vm i = none := by
  rw [State.iotaElem_eq h0, if_pos (State.vl_le_of_noTailWrite ht i), if_pos ht]

theorem State.vidElem_eq_none (i : Nat) : s.vidElem vm i = none := by
  rw [State.vidElem_eq, if_pos (State.vl_le_of_noTailWrite ht i), if_pos ht, ite_self]

end NoTailWrite

/-! ## What is counted and found with `vl` = 0 (R90, R91) -/

section NoElements
variable (hl : s.vl.toNat = 0)
include hl

theorem State.popCount_eq_zero : s.popCount vm vs2 = 0 := by rw [State.popCount, hl, countBelow]

theorem State.firstActive_eq_none : s.firstActive vm vs2 = none := by rw [State.firstActive, hl, firstBelow]

end NoElements

theorem exec_vpopcM (rd vs2 : RegNum) (vm : Bool) (s : State) :
    exec (.vpopcM rd vs2 vm) s =
      maskToScalar (encode (.vpopcM rd vs2 vm)) rd s (BitVec.ofNat _ (s.popCount vm vs2)) := rfl

/-! ## The fifteen instructions -/

/-- Settles O24: each instruction completes by the lemma of its family, with nothing selected, counted or found. -/
theorem zeroLengthSwitchOff : Obligations.ZeroLengthSwitchOff := by
  intro s ht hv
  refine ⟨fun p hp vd vs2 vs1 => ?logical, fun vd vm ha hr => ?vid, fun h0 vd vs2 vm =>
    ⟨fun p hp => ?setFirst, fun ha ho hm => ?iota, ?popc, ?first⟩⟩
  case logical =>
    rw [exec_of_mem_logicalRules vd vs2 vs1 s p hp, maskLogical_eq_next hv,
      State.writeMask_of_forall_none (State.logicalBit_eq_none ht _)]
    rfl
  case vid =>
    rw [exec_vidV_eq_next hv ha hr, State.writeGroup_of_forall_none (State.vidElem_eq_none ht)]
    rfl
  case setFirst =>
    obtain ⟨kind, hexec, _⟩ := exec_of_mem_setFirstRules vd vs2 vm s p hp
    rw [hexec, setFirst_eq_next hv h0, State.writeMask_of_forall_none (State.setFirstBit_eq_none ht kind)]
    rfl
  case iota =>
    rw [exec_viotaM_eq_next ((iotaIllegal_eq_false_iff s vd vs2 vm).2 ⟨hv, ha, h0, ho, hm⟩),
      State.writeGroup_of_forall_none (State.iotaElem_eq_none ht h0)]
    rfl
  case popc =>
    rw [exec_vpopcM, State.popCount_eq_zero ht.1]
    exact maskToScalar_eq_next hv h0
  case first =>
    rw [exec_vfirstM, State.firstActive_eq_none ht.1]
    exact maskToScalar_eq_next hv h0

end Sys2Proof.Machine
end
